-- ==== Sys2Proof/Word.lean ====
section
/-!
DEFINITION. The value types of the CORE (spec/00_scope.md R9, R10, R11): bytes, 32-bit words, 16-bit command
words and 16-byte blocks, with indexing into a block. All numbers are unsigned; the arithmetic laws of R10 are
`BitVec`'s own (`+` and `*` wrap, `>>>` is logical, `<<<` loses the bits shifted out, `~~~` is XOR with all ones).
-/

namespace Sys2Proof

/-- A byte: an element of the `ID`, `FILE` and `PT` spaces (R60) and of `KEY` and `IV` (R34, R35). -/
abbrev Byte := BitVec 8

/-- A 32-bit word (R10): the checksum accumulator, the Seed, the generator words, the length registers. -/
abbrev Word := BitVec 32

/-- A 16-bit command word (R90): an element of the `CMD` space (R63). -/
abbrev CmdWord := BitVec 16

/-- A 16-byte sequence in memory order (R11): a cipher block, the key, the IV. -/
abbrev Block := Vector Byte 16

/-- Element `i` of a block, counting from 0 (R11, `X[i]`); every use in the model has `i` below 16. -/
def Block.at (b : Block) (i : Nat) : Byte :=
  b.toList.getD i 0

/-- The block whose element `i` is `f i`. -/
def Block.tabulate (f : Nat → Byte) : Block :=
  #v[f 0, f 1, f 2, f 3, f 4, f 5, f 6, f 7, f 8, f 9, f 10, f 11, f 12, f 13, f 14, f 15]

end Sys2Proof
end

