-- ==== Sys2Proof/Machine/Aes.lean ====
section
/-!
DEFINITION. The default block primitive, the AES-128 inverse cipher (spec/46_aes128.md R220 to R232). The spec marks
the whole of it as general knowledge, and keeps `BLOCK_DECRYPT` a parameter: `Machine/Cipher.lean` reaches this file
only through the configuration's choice of cipher. Every function below is pure and total; the tables are constants
(R39).
-/

namespace Sys2Proof.Machine

/-- `xtime(a)` of R222: doubling in GF(2^8) modulo 0x11B. -/
def xtime (a : Byte) : Byte :=
  if a.getLsbD 7 then (a <<< 1) ^^^ 0x1B else a <<< 1

/-- The loop of R222's `gmul` from bit `i` on, for `n` more bits of `b`; `r` is the sum so far. -/
def gmulFrom (b : Byte) : Nat → Nat → Byte → Byte → Byte
  | 0, _, _, r => r
  | n + 1, i, a, r => gmulFrom b n (i + 1) (xtime a) (if b.getLsbD i then r ^^^ a else r)

/-- The product `gmul(a, b)` in GF(2^8) (R222). -/
def gmul (a b : Byte) : Byte :=
  gmulFrom b 8 0 a 0

/-- Rows 0 to 7 of the table `SBOX` as R223 prints it; the row is the high nibble of the index. -/
def sboxRowsLow : List (List Byte) := [
  [0x63, 0x7c, 0x77, 0x7b, 0xf2, 0x6b, 0x6f, 0xc5, 0x30, 0x01, 0x67, 0x2b, 0xfe, 0xd7, 0xab, 0x76],
  [0xca, 0x82, 0xc9, 0x7d, 0xfa, 0x59, 0x47, 0xf0, 0xad, 0xd4, 0xa2, 0xaf, 0x9c, 0xa4, 0x72, 0xc0],
  [0xb7, 0xfd, 0x93, 0x26, 0x36, 0x3f, 0xf7, 0xcc, 0x34, 0xa5, 0xe5, 0xf1, 0x71, 0xd8, 0x31, 0x15],
  [0x04, 0xc7, 0x23, 0xc3, 0x18, 0x96, 0x05, 0x9a, 0x07, 0x12, 0x80, 0xe2, 0xeb, 0x27, 0xb2, 0x75],
  [0x09, 0x83, 0x2c, 0x1a, 0x1b, 0x6e, 0x5a, 0xa0, 0x52, 0x3b, 0xd6, 0xb3, 0x29, 0xe3, 0x2f, 0x84],
  [0x53, 0xd1, 0x00, 0xed, 0x20, 0xfc, 0xb1, 0x5b, 0x6a, 0xcb, 0xbe, 0x39, 0x4a, 0x4c, 0x58, 0xcf],
  [0xd0, 0xef, 0xaa, 0xfb, 0x43, 0x4d, 0x33, 0x85, 0x45, 0xf9, 0x02, 0x7f, 0x50, 0x3c, 0x9f, 0xa8],
  [0x51, 0xa3, 0x40, 0x8f, 0x92, 0x9d, 0x38, 0xf5, 0xbc, 0xb6, 0xda, 0x21, 0x10, 0xff, 0xf3, 0xd2]]

/-- Rows 8 to 15 of the table `SBOX` (R223). -/
def sboxRowsHigh : List (List Byte) := [
  [0xcd, 0x0c, 0x13, 0xec, 0x5f, 0x97, 0x44, 0x17, 0xc4, 0xa7, 0x7e, 0x3d, 0x64, 0x5d, 0x19, 0x73],
  [0x60, 0x81, 0x4f, 0xdc, 0x22, 0x2a, 0x90, 0x88, 0x46, 0xee, 0xb8, 0x14, 0xde, 0x5e, 0x0b, 0xdb],
  [0xe0, 0x32, 0x3a, 0x0a, 0x49, 0x06, 0x24, 0x5c, 0xc2, 0xd3, 0xac, 0x62, 0x91, 0x95, 0xe4, 0x79],
  [0xe7, 0xc8, 0x37, 0x6d, 0x8d, 0xd5, 0x4e, 0xa9, 0x6c, 0x56, 0xf4, 0xea, 0x65, 0x7a, 0xae, 0x08],
  [0xba, 0x78, 0x25, 0x2e, 0x1c, 0xa6, 0xb4, 0xc6, 0xe8, 0xdd, 0x74, 0x1f, 0x4b, 0xbd, 0x8b, 0x8a],
  [0x70, 0x3e, 0xb5, 0x66, 0x48, 0x03, 0xf6, 0x0e, 0x61, 0x35, 0x57, 0xb9, 0x86, 0xc1, 0x1d, 0x9e],
  [0xe1, 0xf8, 0x98, 0x11, 0x69, 0xd9, 0x8e, 0x94, 0x9b, 0x1e, 0x87, 0xe9, 0xce, 0x55, 0x28, 0xdf],
  [0x8c, 0xa1, 0x89, 0x0d, 0xbf, 0xe6, 0x42, 0x68, 0x41, 0x99, 0x2d, 0x0f, 0xb0, 0x54, 0xbb, 0x16]]

/-- Rows 0 to 7 of the table `INV_SBOX` (R224). -/
def invSboxRowsLow : List (List Byte) := [
  [0x52, 0x09, 0x6a, 0xd5, 0x30, 0x36, 0xa5, 0x38, 0xbf, 0x40, 0xa3, 0x9e, 0x81, 0xf3, 0xd7, 0xfb],
  [0x7c, 0xe3, 0x39, 0x82, 0x9b, 0x2f, 0xff, 0x87, 0x34, 0x8e, 0x43, 0x44, 0xc4, 0xde, 0xe9, 0xcb],
  [0x54, 0x7b, 0x94, 0x32, 0xa6, 0xc2, 0x23, 0x3d, 0xee, 0x4c, 0x95, 0x0b, 0x42, 0xfa, 0xc3, 0x4e],
  [0x08, 0x2e, 0xa1, 0x66, 0x28, 0xd9, 0x24, 0xb2, 0x76, 0x5b, 0xa2, 0x49, 0x6d, 0x8b, 0xd1, 0x25],
  [0x72, 0xf8, 0xf6, 0x64, 0x86, 0x68, 0x98, 0x16, 0xd4, 0xa4, 0x5c, 0xcc, 0x5d, 0x65, 0xb6, 0x92],
  [0x6c, 0x70, 0x48, 0x50, 0xfd, 0xed, 0xb9, 0xda, 0x5e, 0x15, 0x46, 0x57, 0xa7, 0x8d, 0x9d, 0x84],
  [0x90, 0xd8, 0xab, 0x00, 0x8c, 0xbc, 0xd3, 0x0a, 0xf7, 0xe4, 0x58, 0x05, 0xb8, 0xb3, 0x45, 0x06],
  [0xd0, 0x2c, 0x1e, 0x8f, 0xca, 0x3f, 0x0f, 0x02, 0xc1, 0xaf, 0xbd, 0x03, 0x01, 0x13, 0x8a, 0x6b]]

/-- Rows 8 to 15 of the table `INV_SBOX` (R224). -/
def invSboxRowsHigh : List (List Byte) := [
  [0x3a, 0x91, 0x11, 0x41, 0x4f, 0x67, 0xdc, 0xea, 0x97, 0xf2, 0xcf, 0xce, 0xf0, 0xb4, 0xe6, 0x73],
  [0x96, 0xac, 0x74, 0x22, 0xe7, 0xad, 0x35, 0x85, 0xe2, 0xf9, 0x37, 0xe8, 0x1c, 0x75, 0xdf, 0x6e],
  [0x47, 0xf1, 0x1a, 0x71, 0x1d, 0x29, 0xc5, 0x89, 0x6f, 0xb7, 0x62, 0x0e, 0xaa, 0x18, 0xbe, 0x1b],
  [0xfc, 0x56, 0x3e, 0x4b, 0xc6, 0xd2, 0x79, 0x20, 0x9a, 0xdb, 0xc0, 0xfe, 0x78, 0xcd, 0x5a, 0xf4],
  [0x1f, 0xdd, 0xa8, 0x33, 0x88, 0x07, 0xc7, 0x31, 0xb1, 0x12, 0x10, 0x59, 0x27, 0x80, 0xec, 0x5f],
  [0x60, 0x51, 0x7f, 0xa9, 0x19, 0xb5, 0x4a, 0x0d, 0x2d, 0xe5, 0x7a, 0x9f, 0x93, 0xc9, 0x9c, 0xef],
  [0xa0, 0xe0, 0x3b, 0x4d, 0xae, 0x2a, 0xf5, 0xb0, 0xc8, 0xeb, 0xbb, 0x3c, 0x83, 0x53, 0x99, 0x61],
  [0x17, 0x2b, 0x04, 0x7e, 0xba, 0x77, 0xd6, 0x26, 0xe1, 0x69, 0x14, 0x63, 0x55, 0x21, 0x0c, 0x7d]]

/-- The entry of a table of 16 rows of 16 at a byte index: the row is the high nibble, the column the low one. -/
def tableAt (rows : List (List Byte)) (a : Byte) : Byte :=
  (rows.getD (a >>> 4).toNat []).getD (a &&& 0x0F).toNat 0

/-- `SBOX[a]` (R223). -/
def sbox (a : Byte) : Byte :=
  tableAt (sboxRowsLow ++ sboxRowsHigh) a

/-- `INV_SBOX[a]` (R224). -/
def invSbox (a : Byte) : Byte :=
  tableAt (invSboxRowsLow ++ invSboxRowsHigh) a

/-- `RCON[j + 1]` (R225): `RCON[1] = 0x01` and each next constant is `xtime` of the one before. -/
def rconSucc : Nat → Byte
  | 0 => 0x01
  | j + 1 => xtime (rconSucc j)

/-- The 16 bytes of the next round key: words `kw[4r] … kw[4r+3]` from `kw[4(r-1)] … kw[4(r-1)+3]` (R226), with
the round constant `RCON[r]`. The first word uses the rotated and substituted last word of the key before; the
other three only XOR. -/
def nextRoundKey (k : Block) (rcon : Byte) : Block :=
  let a0 := k.at 0 ^^^ (sbox (k.at 13) ^^^ rcon)
  let a1 := k.at 1 ^^^ sbox (k.at 14)
  let a2 := k.at 2 ^^^ sbox (k.at 15)
  let a3 := k.at 3 ^^^ sbox (k.at 12)
  let b0 := k.at 4 ^^^ a0
  let b1 := k.at 5 ^^^ a1
  let b2 := k.at 6 ^^^ a2
  let b3 := k.at 7 ^^^ a3
  let c0 := k.at 8 ^^^ b0
  let c1 := k.at 9 ^^^ b1
  let c2 := k.at 10 ^^^ b2
  let c3 := k.at 11 ^^^ b3
  #v[a0, a1, a2, a3, b0, b1, b2, b3, c0, c1, c2, c3,
     k.at 12 ^^^ c0, k.at 13 ^^^ c1, k.at 14 ^^^ c2, k.at 15 ^^^ c3]

/-- Round key `rk[r]` (R226): `rk[0]` is the key itself. -/
def roundKey (key : Block) : Nat → Block
  | 0 => key
  | r + 1 => nextRoundKey (roundKey key r) (rconSucc r)

/-- `add_round_key(s, k)` (R227). -/
def addRoundKey (s k : Block) : Block :=
  .tabulate fun i => s.at i ^^^ k.at i

/-- `inv_shift_rows(s)` (R228), written out by index as the rule does. -/
def invShiftRows (s : Block) : Block :=
  #v[s.at 0, s.at 13, s.at 10, s.at 7, s.at 4, s.at 1, s.at 14, s.at 11,
     s.at 8, s.at 5, s.at 2, s.at 15, s.at 12, s.at 9, s.at 6, s.at 3]

/-- `inv_sub_bytes(s)` (R229). -/
def invSubBytes (s : Block) : Block :=
  .tabulate fun i => invSbox (s.at i)

/-- Byte `i` of `inv_mix_columns(s)` (R230): row `r` of column `c` is the sum of 0x0E, 0x0B, 0x0D and 0x09 times
the column's bytes in rows `r`, `r+1`, `r+2` and `r+3` (mod 4). -/
def invMixByte (s : Block) (i : Nat) : Byte :=
  let col := 4 * (i / 4)
  gmul (s.at (col + i % 4)) 0x0E ^^^ gmul (s.at (col + (i + 1) % 4)) 0x0B
    ^^^ gmul (s.at (col + (i + 2) % 4)) 0x0D ^^^ gmul (s.at (col + (i + 3) % 4)) 0x09

/-- `inv_mix_columns(s)` (R230). -/
def invMixColumns (s : Block) : Block :=
  .tabulate (invMixByte s)

/-- One round of R231's loop, with round key `k`: all four steps. -/
def invRound (s k : Block) : Block :=
  invMixColumns (addRoundKey (invSubBytes (invShiftRows s)) k)

/-- R231's loop for `r` = `n`, `n - 1`, …, 1, descending. -/
def invRounds (key : Block) : Nat → Block → Block
  | 0, s => s
  | n + 1, s => invRounds key n (invRound s (roundKey key (n + 1)))

/-- `aes128_inv_cipher(K, C)` (R231). -/
def aes128InvCipher (key block : Block) : Block :=
  let s := invRounds key 9 (addRoundKey block (roundKey key 10))
  addRoundKey (invSubBytes (invShiftRows s)) (roundKey key 0)

end Sys2Proof.Machine
end

