-- ==== Sys2Proof/Config.lean ====
section
/-!
DEFINITION. What an implementation of the CORE fixes (spec/00_scope.md R8), as plain data, and the free values: the
constants without a body that stand for what the spec leaves open. Nothing in Lean can evaluate a free value, so a
theorem that mentions one holds whatever it is.
-/

namespace Sys2Proof

/-- `EMPTY_CT_RESULT` (R8, spec/45_cipher.md R197): what decrypting a region of no blocks gives. OPEN in the spec. -/
inductive EmptyCtResult where
  /-- decryption fails with CryptoError: the spec's default -/
  | fail
  /-- decryption succeeds with a plaintext of length 0 -/
  | empty
  deriving DecidableEq, Repr

/-- `BLOCK_DECRYPT` (R8, spec/45_cipher.md R195) as plain data: which cipher the block primitive is. -/
inductive BlockCipher where
  /-- the spec's decided default, the AES-128 inverse cipher (spec/46_aes128.md R220) -/
  | aes128
  /-- some other total function of key and block, number `n` of `Config.otherBlockDecrypt` -/
  | other (n : Nat)
  deriving DecidableEq, Repr

/-- The parameters a model takes as configuration fields (R8). The last three are widths: a field says how wide the
values are, and the registers' types, as wide as the decided widths, hold them while `Config.widthsFit`
(notes/assumptions/12.md). -/
structure Config where
  /-- `KMT_ROM[0..255]` (spec/43_kdf.md R160): 256 bytes, contents OPEN -/
  kmtRom        : Vector Byte 256
  /-- `BLOCK_DECRYPT` (spec/45_cipher.md R195) -/
  cipher        : BlockCipher
  /-- `EMPTY_CT_RESULT` (spec/45_cipher.md R197) -/
  emptyCtResult : EmptyCtResult
  /-- `ID_ASCII_CHECK` (spec/41_crc.md R126) -/
  idAsciiCheck  : Bool
  /-- `LEN_WIDTH`: `ID_LEN`, `FILE_LEN`, `CT_LEN` and `PT_LEN` are below two to its power -/
  lenWidth      : Nat
  /-- `CP_WIDTH`: `CP` and `CMD_LEN` are below two to its power (spec/10_state.md R21) -/
  cpWidth       : Nat
  /-- `CMD_WIDTH`: a command word is below two to its power (spec/30_encoding.md R90) -/
  cmdWidth      : Nat
  deriving DecidableEq, Repr

/-- FREE VALUE: the hex digit at each index of the hardware's own Key Material Table, whose contents no source gives
(spec/91_not_in_source.md N1, spec/93_implementation_defined.md U1); notes/assumptions/5.md. -/
opaque Config.freeKmtDigit : Nat → BitVec 4

/-- FREE VALUE: the block primitives other than the default (spec/93_implementation_defined.md U2), each a total
function of key and block alone (spec/45_cipher.md R195); notes/assumptions/6.md. -/
opaque Config.otherBlockDecrypt : Nat → Block → Block → Block

/-- FREE VALUE: what a `PT` byte holds where the spec admits any value (spec/93_implementation_defined.md U6, U7);
the first argument is the epoch of `PT`, the second the index; notes/assumptions/8.md. -/
opaque Config.freePtByte : Nat → Nat → Byte

/-- The ASCII code of the lower-case hex digit `d` (spec/43_kdf.md R160: '0' to '9', 'a' to 'f'). -/
def Config.hexDigit (d : BitVec 4) : Byte :=
  if d < 10 then 0x30 + d.setWidth 8 else 0x61 + (d.setWidth 8 - 10)

/-- The table image whose entry `i` is `f i`. -/
def Config.romImage (f : Nat → Byte) : Vector Byte 256 :=
  ⟨((List.range 256).map f).toArray, by simp⟩

/-- The configuration of the hardware right after reset: the decided values of R8, the spec's default for
`EMPTY_CT_RESULT`, and a table of hex digits of which nothing else is known (R160 `KMT_WF`). -/
def Config.standard : Config where
  kmtRom        := Config.romImage fun i => Config.hexDigit (Config.freeKmtDigit i)
  cipher        := .aes128
  emptyCtResult := .fail
  idAsciiCheck  := true
  lenWidth      := 32
  cpWidth       := 16
  cmdWidth      := 16

end Sys2Proof
end

