-- ==== Sys2Proof/Machine/State.lean ====
section
/-!
DEFINITION. The state of the CORE (spec/10_state.md R20), as plain data, and the state after reset (R43,
spec/70_reset_and_hazards.md R301).

A register that has a valid bit (R24) is an `Option`, and the valid bit is whether it is present: "A valid bit set
means the register it guards holds a value the rules define; clear means the register holds no value", and "the model
must not give [it] a number" (R41). So the bit and the register have one home and cannot disagree
(notes/assumptions/1.md). The valid bits under their own names are in `Machine/Flags.lean`.
-/

namespace Sys2Proof.Machine

/-- `STATE` (R22), 2 bits: what the sequencer is doing. -/
inductive RunState where
  /-- 0: after reset, before start -/
  | idle
  /-- 1: the sequencer fetches and executes commands -/
  | running
  /-- 2: a HALT completed; the run ended without a fault -/
  | halted
  /-- 3: a fault was raised -/
  | faulted
  deriving DecidableEq, Repr

/-- `CAUSE` (R23, spec/60_exceptions.md R270): the codes 0 to 7 by name; codes 8 to 15 are never produced
(notes/assumptions/3.md). -/
inductive Cause where
  /-- 0: no fault has been raised -/
  | none
  /-- 1: file shorter than 8 bytes, or trailing marker mismatched (R271) -/
  | formatError
  /-- 2: decryption failed (R272) -/
  | cryptoError
  /-- 3: a table entry is not a hex digit (R273) -/
  | kdfParseError
  /-- 4: an identifier byte is above 0x7F (R278) -/
  | idNotAscii
  /-- 5: the fetched word is no command (R274) -/
  | illegalCommand
  /-- 6: a needed value does not exist, or a once-only value exists already, or the decryption is done (R275) -/
  | sequenceFault
  /-- 7: `CP >= CMD_LEN` (R279) -/
  | fetchPastEnd
  deriving DecidableEq, Repr

/-- `W[0..3]` (R32): the generator's four words. -/
structure Words where
  w0 : Word
  w1 : Word
  w2 : Word
  w3 : Word
  deriving DecidableEq, Repr

/-- A memory of bytes: (address, byte) pairs in the canonical form `Memory.wf` of `Machine/Ops.lean`. -/
abbrev ByteMemory := List Host.Cell

/-- The memory of command words: (index, word) pairs in the same canonical form. It is addressed in words and has
no byte order (spec/20_memory.md R63). -/
abbrev CmdMemory := List (Nat × CmdWord)

/-- The launch configuration (R38): what the host fixes before start and the CORE only reads. -/
structure Launch where
  /-- the `CMD` space (spec/20_memory.md R63) -/
  cmd     : CmdMemory
  /-- `CMD_LEN`, 0 to 65535 -/
  cmdLen  : BitVec 16
  /-- the `ID` space (spec/20_memory.md R61) -/
  id      : ByteMemory
  /-- `ID_LEN`, 0 to 2^32 - 1 -/
  idLen   : Word
  /-- the `FILE` space (spec/20_memory.md R62) -/
  file    : ByteMemory
  /-- `FILE_LEN`, 0 to 2^32 - 1 -/
  fileLen : Word
  deriving DecidableEq, Repr

/-- The state (R20), with the launch configuration and the parameters the step also reads (R38, R8;
notes/assumptions/2.md). -/
structure State where
  /-- `STATE` (R22) -/
  state   : RunState
  /-- `CP` (R21): the index in `CMD` of the command being executed -/
  cp      : BitVec 16
  /-- `CAUSE` (R23) -/
  cause   : Cause
  /-- `FAULT_CP` (R23): holds no value until a fault writes it -/
  faultCp : Option (BitVec 16)
  /-- `CRC_ACC` (R30); present when `CRC_VALID` is 1 -/
  crcAcc  : Option Word
  /-- `SEED` (R31); present when `SEED_VALID` is 1 -/
  seed    : Option Word
  /-- `W[0..3]` (R32); present when `RNG_VALID` is 1 -/
  w       : Option Words
  /-- `RND` (R33); present when `RND_VALID` is 1 -/
  rnd     : Option Word
  /-- `KEY[0..15]` (R34); present when `KEY_VALID` is 1 -/
  key     : Option Block
  /-- `IV[0..15]` (R35); present when `IV_VALID` is 1 -/
  iv      : Option Block
  /-- `CT_LEN` (R36); present when `CT_VALID` is 1 -/
  ctLen   : Option Word
  /-- `PT_LEN` (R37); present when `PT_VALID` is 1 -/
  ptLen   : Option Word
  /-- `DONE` (R24) -/
  done    : Bool
  /-- the `PT` space (spec/20_memory.md R64): the bytes that hold a value -/
  pt      : ByteMemory
  /-- the MODEL's own: how many times a decryption has driven `PT`, the argument of the free value
  `Config.freePtByte` (notes/assumptions/8.md) -/
  ptEpoch : Nat
  /-- the launch configuration (R38) -/
  launch  : Launch
  /-- the parameters (R8) -/
  cfg     : Config
  deriving DecidableEq, Repr

/-- Why the machine stops without a next state. The spec's own faults are not among them: raising one of those is a
next state (R276). -/
inductive Fault where
  /-- A `MemRead` or `MemWrite` asked for elements outside the space: raised by the commands' memory accesses
  (spec/20_memory.md R66, spec/93_implementation_defined.md U13: `stuck`). SAFE: no rule makes such a request, and
  the model's commands make none. -/
  | outOfRange
  deriving DecidableEq, Repr

/-- Why an instruction has no meaning. -/
inductive Refusal where
  /-- The instruction is not modelled: raised by an arm of `exec` that has no meaning yet. SAFE: nothing can be
  proved of its effect. No arm raises it. -/
  | notModelled (mnemonic : String)
  deriving DecidableEq, Repr

/-- The outcome of a step. -/
abbrev Outcome := Host.Outcome State Fault Refusal

/-- Memories and lengths before the host has loaded anything (notes/assumptions/4.md; R301 leaves them to the
host). -/
def Launch.unloaded : Launch where
  cmd     := []
  cmdLen  := 0
  id      := []
  idLen   := 0
  file    := []
  fileLen := 0

/-- The state right after reset (R43, spec/70_reset_and_hazards.md R301) under given memories and parameters, which
reset does not write. -/
def State.resetWith (launch : Launch) (cfg : Config) : State where
  state   := .idle
  cp      := 0
  cause   := .none
  faultCp := none
  crcAcc  := none
  seed    := none
  w       := none
  rnd     := none
  key     := none
  iv      := none
  ctLen   := none
  ptLen   := none
  done    := false
  pt      := []
  ptEpoch := 0
  launch  := launch
  cfg     := cfg

/-- The state right after reset (R301), before the host has loaded anything. -/
def State.reset : State :=
  State.resetWith .unloaded .standard

end Sys2Proof.Machine
end

