-- ==== Sys2Proof/Machine/Ops.lean ====
section
/-!
DEFINITION. The shared operations over memory and state: the sparse memories and the access primitives `MemRead` and
`MemWrite` (spec/20_memory.md R66), fault entry (spec/60_exceptions.md R276), the lifecycle clearing
(spec/10_state.md R24), and the way a command's body becomes a step (spec/47_control.md R250, R252).

There is no return from a fault (R280): `STATE` leaves FAULTED only by reset (`Machine/HostPort.lean`).
-/

namespace Sys2Proof.Machine

/-! ### Memories -/

/-- What an unlisted index of a space the host loads (`CMD`, `ID`, `FILE`) reads as: zero (notes/assumptions/4.md;
an unwritten command is then the illegal word 0x0000, spec/92_eei_decisions.md D4). -/
def inputUnlisted {n : Nat} : Option (BitVec n) := some 0

/-- What an unlisted `PT` index holds: no value (spec/20_memory.md R64, spec/10_state.md R41). -/
def ptUnlisted : Option Byte := none

/-- The element listed at index `a`. -/
def Memory.find {α : Type} : List (Nat × α) → Nat → Option α
  | [], _ => none
  | (b, v) :: m, a => if b = a then some v else Memory.find m a

/-- What index `a` reads as, `u` being what an unlisted index reads as. -/
def Memory.read {α : Type} (u : Option α) (m : List (Nat × α)) (a : Nat) : Option α :=
  (Memory.find m a).or u

/-- `m[a] <- v`, keeping the canonical form: addresses rising, no entry equal to `u`. -/
def Memory.write {α : Type} [DecidableEq α] (u : Option α) : List (Nat × α) → Nat → α → List (Nat × α)
  | [], a, v => if u = some v then [] else [(a, v)]
  | (b, x) :: m, a, v =>
    if a < b then (if u = some v then (b, x) :: m else (a, v) :: (b, x) :: m)
    else if a = b then (if u = some v then m else (a, v) :: m)
    else (b, x) :: Memory.write u m a v

/-- The elements `vs` written at `a`, `a + 1`, … in that order. -/
def Memory.writeAll {α : Type} [DecidableEq α] (u : Option α) (m : List (Nat × α)) (a : Nat) :
    List α → List (Nat × α)
  | [] => m
  | v :: vs => Memory.writeAll u (Memory.write u m a v) (a + 1) vs

/-- The canonical form: addresses strictly rising, and no entry equal to what an unlisted address reads as. -/
def Memory.wf {α : Type} [DecidableEq α] (u : Option α) : List (Nat × α) → Bool
  | [] => true
  | (a, v) :: m => m.all (fun c => decide (a < c.1)) && decide (u ≠ some v) && Memory.wf u m

/-- `MemRead(space, addr, n)` (R66) for a space the host loads, of length `len`: the `n` elements from `addr` on, or
no answer on an out-of-range request. -/
def memRead {n : Nat} (m : List (Nat × BitVec n)) (len addr count : Nat) : Option (List (BitVec n)) :=
  if addr + count ≤ len then
    some ((List.range count).map fun i => (Memory.read inputUnlisted m (addr + i)).getD 0)
  else none

/-- `MemWrite(PT, addr, len(v), v)` (R66), or no answer on an out-of-range request (`PT` has indices 0 to 2^32 - 1,
R60). -/
def memWrite (m : ByteMemory) (addr : Nat) (v : List Byte) : Option ByteMemory :=
  if addr + v.length ≤ 2 ^ 32 then some (Memory.writeAll ptUnlisted m addr v) else none

/-! ### State -/

/-- `CP <- CP + 1` (spec/10_state.md R21). -/
def State.advance (s : State) : State :=
  { s with cp := s.cp + 1 }

/-- Every `PT` byte holds no value any more, and any value may be read there (spec/45_cipher.md R201,
spec/93_implementation_defined.md U6, U7). -/
def State.scramblePt (s : State) : State :=
  { s with pt := [], ptEpoch := s.ptEpoch + 1 }

/-- The registers fault entry writes, and no others (R276). -/
def State.recordFault (s : State) (c : Cause) : State :=
  { s with cause := c, faultCp := some s.cp, state := .faulted }

/-- Fault entry (R276): `CAUSE`, `FAULT_CP` and `STATE` are written, `CP` is unchanged, and after CryptoError every
`PT` byte holds no value. -/
def State.takeFault (s : State) (c : Cause) : State :=
  if c = .cryptoError then (s.recordFault c).scramblePt else s.recordFault c

/-- The lifecycle clearing when the decryption completes (spec/10_state.md R24, spec/45_cipher.md R200): `SEED`, `W`,
`RND`, `KEY` and `IV` hold no value any more. -/
def State.discard (s : State) : State :=
  { s with seed := none, w := none, rnd := none, key := none, iv := none }

/-! ### Bodies of commands -/

/-- What a command's body (its rule without `CP <- CP + 1`) gives: it is done, or it raises a fault in the state the
fault leaves, or a memory access refuses. -/
inductive SubStep where
  | done (s : State)
  | raise (c : Cause) (s : State)
  | stuck (f : Fault)
  deriving DecidableEq, Repr

/-- The next sub-step of RUN, in the state the ones before left; a fault stops there (spec/47_control.md R252,
R253). -/
def SubStep.andThen (r : SubStep) (next : State → SubStep) : SubStep :=
  match r with
  | .done s => next s
  | .raise c s => .raise c s
  | .stuck f => .stuck f

/-- `require <register>_VALID = 1 else raise SequenceFault`, and the value the register then holds (R41, R275). -/
def requireValue {α : Type} (r : Option α) (s : State) (body : α → SubStep) : SubStep :=
  match r with
  | some v => body v
  | none => .raise .sequenceFault s

/-- `require <register>_VALID = 0 else raise SequenceFault` (R275). -/
def requireNone {α : Type} (r : Option α) (s : State) (body : SubStep) : SubStep :=
  match r with
  | some _ => .raise .sequenceFault s
  | none => body

/-- The elements a memory access gives; a refused access is a stuck step (R66, U13). -/
def withAccess {α : Type} (r : Option α) (body : α → SubStep) : SubStep :=
  match r with
  | some v => body v
  | none => .stuck .outOfRange

/-- A body as a step: completing advances `CP`, a fault is entered (R250, R276). -/
def SubStep.finish : SubStep → Outcome
  | .done s => .next s.advance
  | .raise c s => .next (s.takeFault c)
  | .stuck f => .fault f

/-- A command other than HALT: the single-shot check (R250 stage 3), then its body. -/
def runCommand (s : State) (body : State → SubStep) : Outcome :=
  if s.done then .next (s.takeFault .sequenceFault) else (body s).finish

end Sys2Proof.Machine
end

