-- ==== Sys2Proof/Machine/Operands.lean ====
section
/-!
DEFINITION. The operand forms. The one operand in a word is `imm8` of CRC.UPD, a byte as it stands (spec/30_encoding.md
R91); every other operand is implicit and is a run of elements of a space, read here, or the eight marker bytes taken
as a little-endian number (spec/00_scope.md R11, spec/20_memory.md R67).
-/

namespace Sys2Proof.Machine

/-- `le64(B)` (R11): byte 0 is least significant. -/
def le64 : List Byte → BitVec 64
  | [] => 0
  | b :: bs => b.setWidth 64 + 256 * le64 bs

/-- The word fetched at index `a` of `CMD`: `MemRead(CMD, a, 1)[0]` (spec/47_control.md R250). -/
def readCmd (s : State) (a : Nat) : Option CmdWord :=
  (memRead s.launch.cmd s.launch.cmdLen.toNat a 1).bind List.head?

/-- The identifier's bytes: `MemRead(ID, 0, ID_LEN)` (spec/41_crc.md R126). -/
def readId (s : State) : Option (List Byte) :=
  memRead s.launch.id s.launch.idLen.toNat 0 s.launch.idLen.toNat

/-- The file's last eight bytes: `MemRead(FILE, FILE_LEN - 8, 8)` (spec/44_frame.md R182); used when `FILE_LEN` is at
least 8. -/
def readTrailer (s : State) : Option (List Byte) :=
  memRead s.launch.file s.launch.fileLen.toNat (s.launch.fileLen.toNat - 8) 8

/-- The ciphertext region, a view of `FILE` from index 0: `MemRead(FILE, 0, CT_LEN)` (spec/45_cipher.md R200,
spec/44_frame.md R183). -/
def readRegion (s : State) (ctLen : Word) : Option (List Byte) :=
  memRead s.launch.file s.launch.fileLen.toNat 0 ctLen.toNat

end Sys2Proof.Machine
end

