-- ==== Sys2Proof/Machine/Cipher.lean ====
section
/-!
DEFINITION. The cipher stage (spec/45_cipher.md): chained block decryption and padding removal over the configured
block primitive, and the command DEC.RUN.
-/

namespace Sys2Proof.Machine

/-- `BLOCK_DECRYPT(K, C)` (R195): the configured block primitive. -/
def blockDecrypt : BlockCipher → Block → Block → Block
  | .aes128 => aes128InvCipher
  | .other n => Config.otherBlockDecrypt n

/-- Byte-by-byte XOR of two blocks (R198). -/
def xorBlock (a b : Block) : Block :=
  .tabulate fun i => a.at i ^^^ b.at i

/-- `C[k]` (R198): bytes `16k` to `16k + 15` of the region. -/
def regionBlock (region : List Byte) (k : Nat) : Block :=
  .tabulate fun i => region.getD (16 * k + i) 0

/-- The ciphertext blocks `C[0]`, …, `C[m-1]` of a region of `16 m` bytes (R198). -/
def regionBlocks (region : List Byte) : List Block :=
  (List.range (region.length / 16)).map (regionBlock region)

/-- R198's loop: each block's decryption XOR the chain value, and the block is the next chain value. -/
def chainDecrypt (dec : Block → Block) : Block → List Block → List Byte
  | _, [] => []
  | chain, c :: cs => (xorBlock (dec c) chain).toList ++ chainDecrypt dec c cs

/-- Padding removal (R199); none is CryptoError. -/
def stripPadding (raw : List Byte) : Option (List Byte) :=
  let p := (raw.getLastD 0).toNat
  if p = 0 ∨ 16 < p then none
  else if (raw.drop (raw.length - p)).all (fun b => b.toNat == p) then some (raw.take (raw.length - p))
  else none

/-- `decrypt(region, K, V)` (R202); none is CryptoError. -/
def decrypt (cfg : Config) (region : List Byte) (key iv : Block) : Option (List Byte) :=
  if region.length % 16 ≠ 0 then none
  else if region.length = 0 then
    match cfg.emptyCtResult with
    | .fail => none
    | .empty => some []
  else stripPadding (chainDecrypt (blockDecrypt cfg.cipher key) iv (regionBlocks region))

/-- The writes of a decryption that completes (R200): the plaintext is in `PT` from index 0, every other `PT` byte
holds no value (spec/20_memory.md R64), and what the run made before is discarded. -/
def State.completeDecryption (s : State) (plain : List Byte) (pt : ByteMemory) : State :=
  { s.discard with
    pt := pt
    ptEpoch := s.ptEpoch + 1
    ptLen := some (BitVec.ofNat 32 plain.length)
    done := true }

/-- The body of DEC.RUN (R200). -/
def decRunBody (s : State) : SubStep :=
  requireValue s.key s fun key =>
    requireValue s.iv s fun iv =>
      requireValue s.ctLen s fun ctLen =>
        withAccess (readRegion s ctLen) fun region =>
          match decrypt s.cfg region key iv with
          | none => .raise .cryptoError s
          | some plain => withAccess (memWrite [] 0 plain) fun pt => .done (s.completeDecryption plain pt)

/-- `DEC.RUN` (R200). -/
def execDecRun (s : State) : Outcome :=
  runCommand s decRunBody

end Sys2Proof.Machine
end

