-- ==== Sys2Proof/Machine/Crc.lean ====
section
/-!
DEFINITION. The checksum unit (spec/41_crc.md): the reflected CRC-32 and the commands CRC.INIT, CRC.UPD, CRC.FIN and
CRC.ID.
-/

namespace Sys2Proof.Machine

/-- `CRC_POLY` (spec/00_scope.md R7). -/
def crcPoly : Word := 0xEDB88320

/-- `CRC_INIT` (spec/00_scope.md R7). -/
def crcInitValue : Word := 0xFFFFFFFF

/-- One iteration of R120's inner loop: the low bit is tested before the shift. -/
def crcShift (v : Word) : Word :=
  if v.getLsbD 0 then (v >>> 1) ^^^ crcPoly else v >>> 1

/-- `CRC_TAB[i]` (R120): eight iterations from `i`. -/
def crcTab (i : Byte) : Word :=
  crcShift (crcShift (crcShift (crcShift (crcShift (crcShift (crcShift (crcShift (i.setWidth 32))))))))

/-- `crc_step(acc, b)` (R121). -/
def crcStep (acc : Word) (b : Byte) : Word :=
  crcTab ((acc &&& 0xFF).setWidth 8 ^^^ b) ^^^ (acc >>> 8)

/-- `checksum(S)` (R121). -/
def checksum (bytes : List Byte) : Word :=
  ~~~ (bytes.foldl crcStep crcInitValue)

/-- An identifier byte outside ASCII: `> 0x7F` (R126). -/
def nonAscii (b : Byte) : Bool :=
  decide (0x7F < b)

/-- The body of CRC.INIT (R122). -/
def crcInitBody (s : State) : SubStep :=
  .done { s with crcAcc := some crcInitValue }

/-- The body of CRC.UPD (R123). -/
def crcUpdBody (imm8 : Byte) (s : State) : SubStep :=
  requireValue s.crcAcc s fun acc => .done { s with crcAcc := some (crcStep acc imm8) }

/-- The body of CRC.FIN (R124). -/
def crcFinBody (s : State) : SubStep :=
  requireValue s.crcAcc s fun acc =>
    requireNone s.seed s (.done { s with seed := some (~~~ acc), crcAcc := none })

/-- The body of CRC.ID (R126): the scan comes before any write. -/
def crcIdBody (s : State) : SubStep :=
  requireNone s.seed s <|
    withAccess (readId s) fun bytes =>
      if s.cfg.idAsciiCheck && bytes.any nonAscii then .raise .idNotAscii s
      else .done { s with seed := some (checksum bytes), crcAcc := none }

/-- `CRC.INIT` (R122). -/
def execCrcInit (s : State) : Outcome :=
  runCommand s crcInitBody

/-- `CRC.UPD imm8` (R123). -/
def execCrcUpd (imm8 : Byte) (s : State) : Outcome :=
  runCommand s (crcUpdBody imm8)

/-- `CRC.FIN` (R124). -/
def execCrcFin (s : State) : Outcome :=
  runCommand s crcFinBody

/-- `CRC.ID` (R126). -/
def execCrcId (s : State) : Outcome :=
  runCommand s crcIdBody

end Sys2Proof.Machine
end

