-- ==== Sys2Proof/Machine/Frame.lean ====
section
/-!
DEFINITION. The container frame parser (spec/44_frame.md): the command FRM.PARSE.
-/

namespace Sys2Proof.Machine

/-- `MAGIC` (R180, spec/00_scope.md R7): the marker "nisasyst" as a little-endian number. -/
def magic : BitVec 64 := 0x747379736173696E

/-- The body of FRM.PARSE (R182): the length test first, then the marker. -/
def frmParseBody (s : State) : SubStep :=
  requireNone s.ctLen s <|
    if s.launch.fileLen < 8 then .raise .formatError s
    else
      withAccess (readTrailer s) fun trailer =>
        if le64 trailer ≠ magic then .raise .formatError s
        else .done { s with ctLen := some (s.launch.fileLen - 8) }

/-- `FRM.PARSE` (R182). -/
def execFrmParse (s : State) : Outcome :=
  runCommand s frmParseBody

end Sys2Proof.Machine
end

