-- ==== Sys2Proof/Machine/Rng.lean ====
section
/-!
DEFINITION. The pseudorandom generator (spec/42_rng.md): seeding, output, and the commands RNG.SEED and RNG.NEXT.
-/

namespace Sys2Proof.Machine

/-- `RNG_MULT` (spec/00_scope.md R7). -/
def rngMult : Word := 0x6C078965

/-- One iteration of the seeding recurrence (R141) with loop index `i`. -/
def rngSeedStep (s i : Word) : Word :=
  rngMult * (s ^^^ (s >>> 30)) + i + 1

/-- `rng_seed(seed)` (R141): each word feeds the next. -/
def rngSeed (seed : Word) : Words :=
  let w0 := rngSeedStep seed 0
  let w1 := rngSeedStep w0 1
  let w2 := rngSeedStep w1 2
  let w3 := rngSeedStep w2 3
  ⟨w0, w1, w2, w3⟩

/-- The output of `rng_next` (R143) from the old words. -/
def rngOutput (w : Words) : Word :=
  let a := w.w0 ^^^ (w.w0 <<< 11)
  let b := w.w3
  a ^^^ (a >>> 8) ^^^ b ^^^ (b >>> 19)

/-- The new words of `rng_next` (R143): the state moves left by one word and the output enters. -/
def rngAdvance (w : Words) : Words :=
  ⟨w.w1, w.w2, w.w3, rngOutput w⟩

/-- The words after `n` draws (R143, R166). -/
def rngAdvanceBy : Nat → Words → Words
  | 0, w => w
  | n + 1, w => rngAdvanceBy n (rngAdvance w)

/-- The body of RNG.SEED (R142). -/
def rngSeedBody (s : State) : SubStep :=
  requireValue s.seed s fun seed =>
    requireNone s.w s (.done { s with w := some (rngSeed seed) })

/-- The body of RNG.NEXT (R144). -/
def rngNextBody (s : State) : SubStep :=
  requireValue s.w s fun w => .done { s with rnd := some (rngOutput w), w := some (rngAdvance w) }

/-- `RNG.SEED` (R142). -/
def execRngSeed (s : State) : Outcome :=
  runCommand s rngSeedBody

/-- `RNG.NEXT` (R144). -/
def execRngNext (s : State) : Outcome :=
  runCommand s rngNextBody

end Sys2Proof.Machine
end

