-- ==== Sys2Proof/Machine/Kdf.lean ====
section
/-!
DEFINITION. The Key Material Table and the key/IV derivation (spec/43_kdf.md): the commands KDF.KEY and KDF.IV. The
table is the configuration's (R160, R8); the functions take it as an argument.
-/

namespace Sys2Proof.Machine

/-- `KMT_ROM[i]` (R160). -/
def romAt (rom : Vector Byte 256) (i : Byte) : Byte :=
  rom.toList.getD i.toNat 0

/-- `hexval(ch)` (R161): the value of a lower-case hex digit, none for any other byte. -/
def hexval (ch : Byte) : Option Byte :=
  if 0x30 ≤ ch ∧ ch ≤ 0x39 then some (ch - 0x30)
  else if 0x61 ≤ ch ∧ ch ≤ 0x66 then some (ch - 0x61 + 10)
  else none

/-- `KMT_WF` (R160): every entry is a lower-case hex digit. -/
def KmtWf (rom : Vector Byte 256) : Prop :=
  ∀ i : Byte, (0x30 ≤ romAt rom i ∧ romAt rom i ≤ 0x39) ∨ (0x61 ≤ romAt rom i ∧ romAt rom i ≤ 0x66)

/-- Bits 31:24 of a draw, the index of a table entry (R162). -/
def drawIndex (r : Word) : Byte :=
  (r >>> 24).setWidth 8

/-- The byte of two table characters, the first the high nibble (R162, spec/92_eei_decisions.md D21); none where one
is no hex digit. -/
def hexPair (c0 c1 : Byte) : Option Byte :=
  match hexval c0, hexval c1 with
  | some h, some l => some (16 * h + l)
  | _, _ => none

/-- `kdf_byte` (R162): two draws, one byte and the words after; none is KdfParseError. -/
def kdfByte (rom : Vector Byte 256) (w : Words) : Option (Byte × Words) :=
  let r0 := rngOutput w
  let w1 := rngAdvance w
  let r1 := rngOutput w1
  match hexPair (romAt rom (drawIndex r0)) (romAt rom (drawIndex r1)) with
  | some b => some (b, rngAdvance w1)
  | none => none

/-- The first `n` iterations of R163's loop, in order. -/
def kdfBytes (rom : Vector Byte 256) : (n : Nat) → Words → Option (Vector Byte n × Words)
  | 0, w => some (#v[], w)
  | n + 1, w =>
    match kdfBytes rom n w with
    | none => none
    | some (out, w') =>
      match kdfByte rom w' with
      | none => none
      | some (b, w'') => some (out.push b, w'')

/-- `derive_sequence` (R163): sixteen bytes and the words after; none is KdfParseError (R167). -/
def deriveSequence (rom : Vector Byte 256) (w : Words) : Option (Block × Words) :=
  kdfBytes rom 16 w

/-- The body of KDF.KEY (R164). -/
def kdfKeyBody (s : State) : SubStep :=
  requireValue s.w s fun w =>
    requireNone s.key s <|
      match deriveSequence s.cfg.kmtRom w with
      | none => .raise .kdfParseError s
      | some (key, w') => .done { s with key := some key, w := some w' }

/-- The body of KDF.IV (R165): the key first, then the IV. -/
def kdfIvBody (s : State) : SubStep :=
  requireValue s.w s fun w =>
    requireValue s.key s fun _ =>
      requireNone s.iv s <|
        match deriveSequence s.cfg.kmtRom w with
        | none => .raise .kdfParseError s
        | some (iv, w') => .done { s with iv := some iv, w := some w' }

/-- `KDF.KEY` (R164). -/
def execKdfKey (s : State) : Outcome :=
  runCommand s kdfKeyBody

/-- `KDF.IV` (R165). -/
def execKdfIv (s : State) : Outcome :=
  runCommand s kdfIvBody

end Sys2Proof.Machine
end

