-- ==== Sys2Proof/Machine/Control.lean ====
section
/-!
DEFINITION. Control (spec/47_control.md): the commands HALT and RUN. There is no control transfer (R254).
-/

namespace Sys2Proof.Machine

/-- The body of RUN (R252): the six bodies in this order, each in the state the ones before left. -/
def runBody (s : State) : SubStep :=
  (((((crcIdBody s).andThen rngSeedBody).andThen kdfKeyBody).andThen kdfIvBody).andThen frmParseBody).andThen
    decRunBody

/-- `HALT` (R251): the only command that is legal when `DONE` is 1; `CP` stays. -/
def execHalt (s : State) : Outcome :=
  .next { s with state := .halted }

/-- `RUN` (R252). -/
def execRun (s : State) : Outcome :=
  runCommand s runBody

end Sys2Proof.Machine
end

