-- ==== Sys2Proof/Syntax.lean ====
section
/-!
DEFINITION. The commands of the CORE (spec/30_encoding.md R93), one constructor per row of spec/opcode_table.json,
and the lines of its assembler (R96, R97).
-/

namespace Sys2Proof

/-- The twelve commands (R93). Only CRC.UPD has an operand in its word (R91); every other operand is implicit. -/
inductive Instr where
  /-- `HALT`, 0x0100 (spec/47_control.md R251) -/
  | halt
  /-- `RUN`, 0x0200 (spec/47_control.md R252) -/
  | run
  /-- `CRC.INIT`, 0x1000 (spec/41_crc.md R122) -/
  | crcInit
  /-- `CRC.UPD imm8`, 0x1100 + imm8 (spec/41_crc.md R123) -/
  | crcUpd (imm8 : Byte)
  /-- `CRC.FIN`, 0x1200 (spec/41_crc.md R124) -/
  | crcFin
  /-- `CRC.ID`, 0x1300 (spec/41_crc.md R126) -/
  | crcId
  /-- `RNG.SEED`, 0x2000 (spec/42_rng.md R142) -/
  | rngSeed
  /-- `RNG.NEXT`, 0x2100 (spec/42_rng.md R144) -/
  | rngNext
  /-- `KDF.KEY`, 0x3000 (spec/43_kdf.md R164) -/
  | kdfKey
  /-- `KDF.IV`, 0x3100 (spec/43_kdf.md R165) -/
  | kdfIv
  /-- `FRM.PARSE`, 0x4000 (spec/44_frame.md R182) -/
  | frmParse
  /-- `DEC.RUN`, 0x5000 (spec/45_cipher.md R200) -/
  | decRun
  deriving DecidableEq, Repr

/-- A line of an assembler program (R96): a command, or one of the two pseudo-commands of R97, which an assembler
expands and the CORE never sees. -/
inductive AsmLine where
  /-- a command of R93 -/
  | command (i : Instr)
  /-- `CRC.STR "text"` (R97) -/
  | crcStr (text : List Byte)
  /-- `DECRYPT` (R97) -/
  | decrypt
  deriving DecidableEq, Repr

end Sys2Proof
end

