-- ==== Sys2Proof/Machine/Dispatch.lean ====
section
/-!
DEFINITION. The dispatch: one arm per command of spec/30_encoding.md R93.
-/

namespace Sys2Proof.Machine

def exec (i : Instr) (s : State) : Host.Outcome State Fault Refusal :=
  match i with
  | .halt => Sys2Proof.Machine.execHalt s
  | .run => Sys2Proof.Machine.execRun s
  | .crcInit => Sys2Proof.Machine.execCrcInit s
  | .crcUpd imm8 => Sys2Proof.Machine.execCrcUpd imm8 s
  | .crcFin => Sys2Proof.Machine.execCrcFin s
  | .crcId => Sys2Proof.Machine.execCrcId s
  | .rngSeed => Sys2Proof.Machine.execRngSeed s
  | .rngNext => Sys2Proof.Machine.execRngNext s
  | .kdfKey => Sys2Proof.Machine.execKdfKey s
  | .kdfIv => Sys2Proof.Machine.execKdfIv s
  | .frmParse => Sys2Proof.Machine.execFrmParse s
  | .decRun => Sys2Proof.Machine.execDecRun s

end Sys2Proof.Machine
end

