-- ==== Sys2Proof/WellFormed.lean ====
section
/-!
DEFINITION. The checks that types alone do not make. A command is well-formed by its type: the one operand is a byte,
"used as an unsigned byte 0 to 255 exactly as it stands" (spec/30_encoding.md R91), and there is no register, mode or
condition field (R90). What is left to check: the two fields of a command word (R90), an assembler line's text (R97),
the widths of a configuration (R8), and the sizes of what the host loads (spec/20_memory.md R62, R63).
-/

namespace Sys2Proof

/-- The opcodes of the eleven format-N commands (R93). -/
def formatNOpcodes : List Byte :=
  [0x01, 0x02, 0x10, 0x12, 0x13, 0x20, 0x21, 0x30, 0x31, 0x40, 0x50]

/-- The opcode of the one format-I command, CRC.UPD (R93). -/
def formatIOpcode : Byte := 0x11

/-- The two fields of a command word, `opcode` in bits 15:8 and `imm8` in bits 7:0 (R90). -/
structure CmdFields where
  opcode : Byte
  imm8   : Byte
  deriving DecidableEq, Repr

/-- The fields make a command (R90, R94): format I with any `imm8`, or format N with `imm8` = 0x00. -/
def CmdFields.wf (f : CmdFields) : Bool :=
  f.opcode == formatIOpcode || (formatNOpcodes.contains f.opcode && f.imm8 == 0)

/-- A printable ASCII character other than the double quote (R97, the text of `CRC.STR`). -/
def asmTextByte (b : Byte) : Bool :=
  decide (0x20 ≤ b) && decide (b ≤ 0x7E) && b != 0x22

/-- The check on an assembler line: the text of `CRC.STR` is printable ASCII without a double quote (R97). -/
def AsmLine.wf : AsmLine → Bool
  | .command _ => true
  | .crcStr text => text.all asmTextByte
  | .decrypt => true

/-- The widths of a configuration fit the registers' types, which are as wide as R8 decides. -/
def Config.widthsFit (cfg : Config) : Bool :=
  decide (cfg.lenWidth ≤ 32) && decide (cfg.cpWidth ≤ 16) && decide (cfg.cmdWidth ≤ 16)

/-- A command stream the `CMD` space can hold: `CMD_LEN` is below `2 ^ CP_WIDTH`, at most 65535 (spec/20_memory.md
R63), and each word has `CMD_WIDTH` bits (R8). -/
def cmdStreamWf (cfg : Config) (words : List CmdWord) : Bool :=
  decide (words.length < 2 ^ cfg.cpWidth) && words.all fun w => decide (w.toNat < 2 ^ cfg.cmdWidth)

/-- A byte sequence whose length a length register holds: below `2 ^ LEN_WIDTH` (R8, spec/20_memory.md R62). -/
def inputBytesWf (cfg : Config) (bytes : List Byte) : Bool :=
  decide (bytes.length < 2 ^ cfg.lenWidth)

end Sys2Proof
end

