-- ==== Sys2Proof/Decode.lean ====
section
/-!
DEFINITION. Decoding and encoding of command words (spec/30_encoding.md R90 to R95). Decoding is total on the 65536
words and depends on no state (R92); a word that is no command is rejected by name (R94). The encoder is written from
the same table, R93.
-/

namespace Sys2Proof

/-- Why a word is illegal (R94). -/
inductive IllegalWord where
  /-- its opcode is not one of the twelve -/
  | unknownOpcode (opcode : Byte)
  /-- its opcode is that of a format-N command and its low byte is not 0x00 -/
  | strayImmediate (opcode imm8 : Byte)
  deriving DecidableEq, Repr

/-- What a word decodes to (R92). -/
inductive Decoded where
  | command (i : Instr)
  | illegal (why : IllegalWord)
  deriving DecidableEq, Repr

/-- The fields of a word: `opcode` = bits 15:8, `imm8` = bits 7:0 (R90). -/
def fieldsOf (w : CmdWord) : CmdFields where
  opcode := w.extractLsb' 8 8
  imm8   := w.extractLsb' 0 8

/-- The word of two fields: `opcode * 256 + imm8` (R90). -/
def CmdFields.word (f : CmdFields) : CmdWord :=
  f.opcode ++ f.imm8

/-- The format-N rows of R93: opcode and command. -/
def formatNTable : List (Byte × Instr) :=
  [(0x01, .halt), (0x02, .run), (0x10, .crcInit), (0x12, .crcFin), (0x13, .crcId), (0x20, .rngSeed),
   (0x21, .rngNext), (0x30, .kdfKey), (0x31, .kdfIv), (0x40, .frmParse), (0x50, .decRun)]

/-- Decoding from the fields: the opcode first, then, for format N, `imm8` (R92). -/
def decodeFields (f : CmdFields) : Decoded :=
  if f.opcode = formatIOpcode then .command (.crcUpd f.imm8)
  else
    match formatNTable.lookup f.opcode with
    | some i => if f.imm8 = 0 then .command i else .illegal (.strayImmediate f.opcode f.imm8)
    | none => .illegal (.unknownOpcode f.opcode)

/-- Decoding of a command word (R92). -/
def decode (w : CmdWord) : Decoded :=
  decodeFields (fieldsOf w)

/-- The opcode of each command (R93). -/
def opcodeOf : Instr → Byte
  | .halt => 0x01
  | .run => 0x02
  | .crcInit => 0x10
  | .crcUpd _ => 0x11
  | .crcFin => 0x12
  | .crcId => 0x13
  | .rngSeed => 0x20
  | .rngNext => 0x21
  | .kdfKey => 0x30
  | .kdfIv => 0x31
  | .frmParse => 0x40
  | .decRun => 0x50

/-- The low byte of each command's word: the operand of CRC.UPD, 0x00 for format N (R90, R91). -/
def immOf : Instr → Byte
  | .crcUpd imm8 => imm8
  | .halt | .run | .crcInit | .crcFin | .crcId | .rngSeed | .rngNext | .kdfKey | .kdfIv | .frmParse | .decRun => 0

/-- The word of a command (R90, R93). -/
def encode (i : Instr) : CmdWord :=
  CmdFields.word ⟨opcodeOf i, immOf i⟩

/-- The `match` and `mask` of each command's row of R93: a word `w` is the command when `w AND mask = match`. -/
def rowOf : Instr → CmdWord × CmdWord
  | .halt => (0x0100, 0xFFFF)
  | .run => (0x0200, 0xFFFF)
  | .crcInit => (0x1000, 0xFFFF)
  | .crcUpd _ => (0x1100, 0xFF00)
  | .crcFin => (0x1200, 0xFFFF)
  | .crcId => (0x1300, 0xFFFF)
  | .rngSeed => (0x2000, 0xFFFF)
  | .rngNext => (0x2100, 0xFFFF)
  | .kdfKey => (0x3000, 0xFFFF)
  | .kdfIv => (0x3100, 0xFFFF)
  | .frmParse => (0x4000, 0xFFFF)
  | .decRun => (0x5000, 0xFFFF)

/-- The word has the pattern of the command's row of R93. -/
def fitsRow (i : Instr) (w : CmdWord) : Bool :=
  w &&& (rowOf i).2 == (rowOf i).1

/-- The mnemonic of R93. -/
def mnemonicOf : Instr → String
  | .halt => "HALT"
  | .run => "RUN"
  | .crcInit => "CRC.INIT"
  | .crcUpd _ => "CRC.UPD"
  | .crcFin => "CRC.FIN"
  | .crcId => "CRC.ID"
  | .rngSeed => "RNG.SEED"
  | .rngNext => "RNG.NEXT"
  | .kdfKey => "KDF.KEY"
  | .kdfIv => "KDF.IV"
  | .frmParse => "FRM.PARSE"
  | .decRun => "DEC.RUN"

/-- The instruction the decoder reads from a row of the opcode table whose bits are `w`: the one 16-bit word of
every command (R95), with the bits at and above `nbits` zero. -/
def decodeTableWord (nbits w : Nat) : Option Instr :=
  match decode (BitVec.ofNat 16 (w % 2 ^ nbits)) with
  | .command i => some i
  | .illegal _ => none

end Sys2Proof
end

