-- ==== Sys2Proof/Machine/Fetch.lean ====
section
/-!
DEFINITION. Stages 1 and 2 of the execute cycle (spec/47_control.md R250): fetch and decode. Stage 3, the single-shot
check, and stage 4, the command's own rule, are in the meanings (`runCommand` of `Machine/Ops.lean`), since stage 3
depends on the command.
-/

namespace Sys2Proof.Machine

/-- What fetching and decoding give. -/
inductive Fetched where
  /-- a command to execute -/
  | command (i : Instr)
  /-- FetchPastEnd or IllegalCommand -/
  | raise (c : Cause)
  /-- the memory refused (R66) -/
  | stuck (f : Fault)
  deriving DecidableEq, Repr

/-- Stage 2: a fetched word decodes to a command, or raises IllegalCommand (spec/30_encoding.md R94). -/
def decodeFetched (w : CmdWord) : Fetched :=
  match decode w with
  | .command i => .command i
  | .illegal _ => .raise .illegalCommand

/-- Stages 1 and 2 (R250). -/
def fetch (s : State) : Fetched :=
  if s.launch.cmdLen ≤ s.cp then .raise .fetchPastEnd
  else
    match readCmd s s.cp.toNat with
    | some w => decodeFetched w
    | none => .stuck .outOfRange

/-- The index an instruction is placed at to be fetched next: `CP`, or 0 where `CP` is 65535, an index the `CMD` space
does not have (spec/20_memory.md R63). -/
def placeIndex (s : State) : BitVec 16 :=
  if s.cp = 0xFFFF then 0 else s.cp

/-- `CMD_LEN` long enough for the index `a` to be fetched. -/
def lenCovering (len a : BitVec 16) : BitVec 16 :=
  if len ≤ a then a + 1 else len

/-- The state with the word `w` where the next step fetches, launched (notes/assumptions/10.md). -/
def placeWord (s : State) (w : CmdWord) : State :=
  { s with
    state := .running
    cp := placeIndex s
    launch := { s.launch with
      cmd := Memory.write inputUnlisted s.launch.cmd (placeIndex s).toNat w
      cmdLen := lenCovering s.launch.cmdLen (placeIndex s) } }

end Sys2Proof.Machine
end

