-- ==== Sys2Proof/Machine/Step.lean ====
section
/-!
DEFINITION. One step of the sequencer (spec/47_control.md R250).
-/

namespace Sys2Proof.Machine

/-- One step (R250): while RUNNING, fetch, decode and execute; in any other `STATE` the sequencer does nothing. -/
def step (s : State) : Host.Outcome State Fault Refusal :=
  match s.state with
  | .running =>
    match fetch s with
    | .command i => exec i s
    | .raise c => .next (s.takeFault c)
    | .stuck f => .fault f
  | .idle | .halted | .faulted => .next s

/-- The state with the instruction whose bits are `w` stored where the next step fetches, and launched. -/
def State.withFetchWord (s : State) (nbits w : Nat) : State :=
  placeWord s (BitVec.ofNat 16 (w % 2 ^ nbits))

end Sys2Proof.Machine
end

