-- ==== Sys2Proof/Machine/Assembler.lean ====
section
/-!
DEFINITION. The assembler (spec/30_encoding.md R96, R97): the text form of a program and the pseudo-commands. The CORE
never sees either; an assembler is the host's tool, and a program's encoding is its 16-bit words in `CMD` order.
-/

namespace Sys2Proof.Machine

/-- The commands an assembler line stands for (R97). -/
def expandLine : AsmLine → List Instr
  | .command i => [i]
  | .crcStr text => .crcInit :: (text.map Instr.crcUpd ++ [.crcFin])
  | .decrypt => [.crcId, .rngSeed, .kdfKey, .kdfIv, .frmParse, .decRun]

/-- The commands of a program, in line order (R96). -/
def expandProgram (lines : List AsmLine) : List Instr :=
  lines.flatMap expandLine

/-- The words of a program, in `CMD` order (R96). -/
def assembleLines (lines : List AsmLine) : List CmdWord :=
  (expandProgram lines).map encode

/-! ### Reading the text -/

/-- The single quote. -/
def asmQuote : Char := Char.ofNat 0x27

/-- The double quote. -/
def asmDoubleQuote : Char := Char.ofNat 0x22

/-- The text without its leading spaces. -/
def skipSpaces : List Char → List Char
  | [] => []
  | c :: cs => if c = ' ' then skipSpaces cs else c :: cs

/-- The first word of the text, up to a space, a comment or the end, and the rest. -/
def takeWord : List Char → List Char × List Char
  | [] => ([], [])
  | c :: cs => if c = ' ' ∨ c = ';' then ([], c :: cs) else (c :: (takeWord cs).1, (takeWord cs).2)

/-- Nothing but spaces and a comment is left on the line (R96: a `;` starts a comment that runs to the end). -/
def onlyComment (cs : List Char) : Bool :=
  match skipSpaces cs with
  | [] => true
  | c :: _ => c == ';'

/-- The value of a hex digit in source text, in either case. -/
def asmHexVal (c : Char) : Option Nat :=
  if 0x30 ≤ c.toNat ∧ c.toNat ≤ 0x39 then some (c.toNat - 0x30)
  else if 0x61 ≤ c.toNat ∧ c.toNat ≤ 0x66 then some (c.toNat - 0x61 + 10)
  else if 0x41 ≤ c.toNat ∧ c.toNat ≤ 0x46 then some (c.toNat - 0x41 + 10)
  else none

/-- The value of decimal digits read after the value `acc`. -/
def asmDecimalFrom : Nat → List Char → Option Nat
  | acc, [] => some acc
  | acc, c :: cs =>
    if 0x30 ≤ c.toNat ∧ c.toNat ≤ 0x39 then asmDecimalFrom (10 * acc + (c.toNat - 0x30)) cs else none

/-- A word that is a decimal number 0 to 255 (R96). It may have leading zeros, any number of them, a DESIGN CHOICE: R96
does not say (notes/assumptions/14.md). -/
def asmDecimalByte (word : List Char) : Option Byte :=
  if word = [] then none
  else
    match asmDecimalFrom 0 word with
    | some v => if v ≤ 255 then some (BitVec.ofNat 8 v) else none
    | none => none

/-- A word that is a byte as a number (R96): `0x` and two hex digits, or a decimal 0 to 255. -/
def asmNumber : List Char → Option Byte
  | ['0', 'x', h, l] =>
    match asmHexVal h, asmHexVal l with
    | some a, some b => some (BitVec.ofNat 8 (16 * a + b))
    | _, _ => none
  | word => asmDecimalByte word

/-- The operand of `CRC.UPD` (R96) and the text after it: a number, or one printable ASCII character between single
quotes. -/
def asmByteOperand : List Char → Option (Byte × List Char)
  | q :: c :: r :: rest =>
    if q = asmQuote then
      if r = asmQuote ∧ 0x20 ≤ c.toNat ∧ c.toNat ≤ 0x7E then some (BitVec.ofNat 8 c.toNat, rest) else none
    else (asmNumber (takeWord (q :: c :: r :: rest)).1).map fun b => (b, (takeWord (q :: c :: r :: rest)).2)
  | cs => (asmNumber (takeWord cs).1).map fun b => (b, (takeWord cs).2)

/-- The characters up to the closing double quote and the text after it (R97). -/
def asmStringBody : List Char → Option (List Char × List Char)
  | [] => none
  | c :: cs => if c = asmDoubleQuote then some ([], cs) else (asmStringBody cs).map fun r => (c :: r.1, r.2)

/-- The operand of `CRC.STR` (R97) and the text after it. -/
def asmStringOperand : List Char → Option (List Byte × List Char)
  | [] => none
  | c :: cs =>
    if c = asmDoubleQuote then
      match asmStringBody cs with
      | none => none
      | some (text, rest) =>
        if text.all (fun t => decide (t.toNat ≤ 0x7E)) then
          some (text.map (fun t => BitVec.ofNat 8 t.toNat), rest)
        else none
    else none

/-- The commands without an operand in their text, by mnemonic (R93). -/
def asmPlain : List Instr :=
  [.halt, .run, .crcInit, .crcFin, .crcId, .rngSeed, .rngNext, .kdfKey, .kdfIv, .frmParse, .decRun]

/-- The line that a mnemonic and the text after it make (R96, R97); none is a syntax error. -/
def asmLineOf (word rest : List Char) : Option AsmLine :=
  if word = (mnemonicOf (.crcUpd 0)).toList then
    match asmByteOperand (skipSpaces rest) with
    | some (b, after) => if onlyComment after then some (.command (.crcUpd b)) else none
    | none => none
  else if word = "CRC.STR".toList then
    match asmStringOperand (skipSpaces rest) with
    | some (text, after) =>
      if onlyComment after && (AsmLine.crcStr text).wf then some (.crcStr text) else none
    | none => none
  else if onlyComment rest then
    if word = "DECRYPT".toList then some .decrypt
    else (asmPlain.find? fun i => (mnemonicOf i).toList == word).map .command
  else none

/-- One line of text: no command on a blank or comment line, else one line; none is a syntax error (R96). -/
def parseLine (cs : List Char) : Option (List AsmLine) :=
  if onlyComment cs then some []
  else (asmLineOf (takeWord (skipSpaces cs)).1 (takeWord (skipSpaces cs)).2).map fun l => [l]

/-- The lines of a text, split at each newline. -/
def splitLines : List Char → List (List Char)
  | [] => [[]]
  | c :: cs =>
    if c.toNat = 10 then [] :: splitLines cs
    else
      match splitLines cs with
      | [] => [[c]]
      | l :: ls => (c :: l) :: ls

/-- The lines of a program's text; none is a syntax error. -/
def parseProgram : List (List Char) → Option (List AsmLine)
  | [] => some []
  | l :: ls =>
    match parseLine l, parseProgram ls with
    | some a, some b => some (a ++ b)
    | _, _ => none

/-- A program's text to its words in `CMD` order (R96). -/
def assemble (source : String) : Option (List CmdWord) :=
  (parseProgram (splitLines source.toList)).map assembleLines

end Sys2Proof.Machine
end

