-- ==== Sys2Proof/Machine/Flags.lean ====
section
/-!
DEFINITION. The flags (spec/10_state.md R24) under their own names, and the encodings of `STATE` (R22) and `CAUSE`
(spec/60_exceptions.md R270). A valid bit is whether the register it guards is present (notes/assumptions/1.md); the
`DONE` flag is a field of its own.
-/

namespace Sys2Proof.Machine

/-- `CRC_VALID` (R24). -/
def State.crcValid (s : State) : Bool := s.crcAcc.isSome
/-- `SEED_VALID` (R24). -/
def State.seedValid (s : State) : Bool := s.seed.isSome
/-- `RNG_VALID` (R24). -/
def State.rngValid (s : State) : Bool := s.w.isSome
/-- `RND_VALID` (R24). -/
def State.rndValid (s : State) : Bool := s.rnd.isSome
/-- `KEY_VALID` (R24). -/
def State.keyValid (s : State) : Bool := s.key.isSome
/-- `IV_VALID` (R24). -/
def State.ivValid (s : State) : Bool := s.iv.isSome
/-- `CT_VALID` (R24). -/
def State.ctValid (s : State) : Bool := s.ctLen.isSome
/-- `PT_VALID` (R24). -/
def State.ptValid (s : State) : Bool := s.ptLen.isSome

/-- The value of `STATE` (R22). -/
def RunState.code : RunState → BitVec 2
  | .idle => 0
  | .running => 1
  | .halted => 2
  | .faulted => 3

/-- The code of a cause (R270). -/
def Cause.code : Cause → BitVec 4
  | .none => 0
  | .formatError => 1
  | .cryptoError => 2
  | .kdfParseError => 3
  | .idNotAscii => 4
  | .illegalCommand => 5
  | .sequenceFault => 6
  | .fetchPastEnd => 7

end Sys2Proof.Machine
end

