-- ==== Sys2Proof/Machine/HostView.lean ====
section
/-!
DEFINITION. What the host sees of the CORE: `STATUS` (spec/10_state.md R25), the numbered status registers (R26), the
plaintext memory (spec/20_memory.md R64) and the result of a run (spec/47_control.md R255). Views only: nothing here is
state. `CRC_ACC`, `W`, `KEY` and `IV` are not visible (R40).
-/

namespace Sys2Proof.Machine

/-- A one-bit field of `STATUS` at bit `i`. -/
def statusBit (b : Bool) (i : Nat) : Word :=
  (BitVec.ofBool b).setWidth 32 <<< i

/-- `STATUS` (R25): the packed view; bits 3:2 and 31:17 read as 0. -/
def State.status (s : State) : Word :=
  s.state.code.setWidth 32 ||| (s.cause.code.setWidth 32 <<< 4)
    ||| statusBit s.crcValid 8 ||| statusBit s.seedValid 9 ||| statusBit s.rngValid 10
    ||| statusBit s.rndValid 11 ||| statusBit s.keyValid 12 ||| statusBit s.ivValid 13
    ||| statusBit s.ctValid 14 ||| statusBit s.ptValid 15 ||| statusBit s.done 16

/-- The numbered status registers SR0 to SR6 (R26). -/
inductive StatusReg where
  | status
  | faultCp
  | cp
  | seed
  | rnd
  | ctLen
  | ptLen
  deriving DecidableEq, Repr

/-- The number of a status register (R26). -/
def StatusReg.number : StatusReg → Nat
  | .status => 0
  | .faultCp => 1
  | .cp => 2
  | .seed => 3
  | .rnd => 4
  | .ctLen => 5
  | .ptLen => 6

/-- What a status register holds, zero-extended to 32 bits; no value outside its "readable when" condition (R26,
spec/93_implementation_defined.md U8: refuse). -/
def State.statusRegValue (s : State) : StatusReg → Option Word
  | .status => some s.status
  | .faultCp => if s.state = .faulted then s.faultCp.map (BitVec.setWidth 32) else none
  | .cp => some (s.cp.setWidth 32)
  | .seed => s.seed
  | .rnd => s.rnd
  | .ctLen => s.ctLen
  | .ptLen => s.ptLen

/-- The host's reads (spec/70_reset_and_hazards.md R304). -/
inductive HostRead where
  /-- a status register -/
  | statusReg (r : StatusReg)
  /-- a byte of `PT` -/
  | pt (a : Nat)
  deriving DecidableEq, Repr

/-- The index is one of the plaintext's: `PT_VALID` = 1 and the index is below `PT_LEN` (R304). -/
def State.plaintextIndex (s : State) (a : Nat) : Bool :=
  match s.ptLen with
  | some n => decide (a < n.toNat)
  | none => false

/-- The reads the host may make in each `STATE` (R304): in IDLE it reads no result; while RUNNING it polls `STATUS`
and reads neither `PT` nor SR1 to SR6; after the stop it reads the status registers, as R26 says, and `PT` only
after HALTED and below `PT_LEN`. That `CP` is not read while RUNNING, and that SR3 to SR6 are read after FAULTED, are
DEDUCED (notes/assumptions/9.md). -/
def HostRead.allowed (s : State) : HostRead → Bool
  | .statusReg r =>
    match s.state with
    | .idle => r == .status || r == .cp
    | .running => r == .status
    | .halted | .faulted => true
  | .pt a => s.state == .halted && s.plaintextIndex a

/-- The host reads a status register: what it holds, where the host may read it (R26, R304). -/
def State.readStatusReg (s : State) (r : StatusReg) : Option Word :=
  if HostRead.allowed s (.statusReg r) then s.statusRegValue r else none

/-- The host reads a byte of `PT`: the plaintext's byte, where the host may read it (R304, spec/20_memory.md R75). -/
def State.readPt (s : State) (a : Nat) : Option Byte :=
  if HostRead.allowed s (.pt a) then Memory.find s.pt a else none

/-- What a `PT` index holds (the host reads it through `State.readPt` only): the byte written there; else, once a decryption has driven `PT`, any value (a free value:
U6, U7); else no value (R41). -/
def State.ptByte (s : State) (a : Nat) : Option Byte :=
  if 2 ^ 32 ≤ a then none
  else
    match Memory.find s.pt a with
    | some b => some b
    | none => if s.ptEpoch = 0 then none else some (Config.freePtByte s.ptEpoch a)

/-- The `n` elements listed from index `a` on, if all of them are. -/
def Memory.run {α : Type} (m : List (Nat × α)) : Nat → Nat → Option (List α)
  | _, 0 => some []
  | a, n + 1 =>
    match Memory.find m a, Memory.run m (a + 1) n with
    | some v, some vs => some (v :: vs)
    | _, _ => none

/-- The run has ended (R255). -/
def State.ended (s : State) : Bool :=
  s.state == .halted || s.state == .faulted

/-- The run ended well (R255): then, and only then, the host may take a result. -/
def State.endedWell (s : State) : Bool :=
  s.state == .halted

/-- The plaintext the host takes (R255): `PT[0..PT_LEN-1]` when `STATE` is HALTED and `PT_VALID` is 1, and no
plaintext otherwise. -/
def State.plaintext (s : State) : Option (List Byte) :=
  match s.state, s.ptLen with
  | .halted, some n => Memory.run s.pt 0 n.toNat
  | _, _ => none

end Sys2Proof.Machine
end

