-- ==== Sys2Proof/Machine/HostPort.lean ====
section
/-!
DEFINITION. What the host does to the CORE (spec/70_reset_and_hazards.md R300 to R304): reset, loading the memories,
and the start pulse. These are moves of the environment, not steps of the sequencer: while `STATE` is RUNNING the host
is assumed to make none of them (spec/20_memory.md R75; notes/assumptions/9.md).
-/

namespace Sys2Proof.Machine

/-- Reset (R300, R301), from any state: the reset values, with `CMD`, `ID`, `FILE`, the lengths and the constants as
they are. -/
def State.assertReset (s : State) : State :=
  State.resetWith s.launch s.cfg

/-- The start pulse (R302 step 6, spec/10_state.md R22): IDLE goes to RUNNING; in any other state nothing happens. -/
def State.pulseStart (s : State) : State :=
  if s.state = .idle then { s with state := .running } else s

/-- The host writes the command stream and sets `CMD_LEN` (R302 step 2). -/
def State.loadCmd (s : State) (words : List CmdWord) : State :=
  { s with launch := { s.launch with
      cmd := Memory.writeAll inputUnlisted [] 0 words
      cmdLen := BitVec.ofNat 16 words.length } }

/-- The host writes the identifier's bytes and sets `ID_LEN` (R302 step 3). -/
def State.loadId (s : State) (bytes : List Byte) : State :=
  { s with launch := { s.launch with
      id := Memory.writeAll inputUnlisted [] 0 bytes
      idLen := BitVec.ofNat 32 bytes.length } }

/-- The host writes the container's bytes and sets `FILE_LEN` (R302 step 4). -/
def State.loadFile (s : State) (bytes : List Byte) : State :=
  { s with launch := { s.launch with
      file := Memory.writeAll inputUnlisted [] 0 bytes
      fileLen := BitVec.ofNat 32 bytes.length } }

/-- The host's moves (R304). -/
inductive HostMove where
  | assertReset
  | loadCmd (words : List CmdWord)
  | loadId (bytes : List Byte)
  | loadFile (bytes : List Byte)
  | pulseStart
  /-- a read, which changes nothing (spec/20_memory.md R69) -/
  | read (r : HostRead)
  deriving DecidableEq, Repr

/-- The effect of a move. -/
def HostMove.apply (s : State) : HostMove → State
  | .assertReset => s.assertReset
  | .loadCmd words => s.loadCmd words
  | .loadId bytes => s.loadId bytes
  | .loadFile bytes => s.loadFile bytes
  | .pulseStart => s.pulseStart
  | .read _ => s

/-- What the host may do when (R304, R75): nothing but read `STATUS` and pulse start (which then does nothing) while
RUNNING; load only in IDLE, and only what the lengths can hold (R62, R63); read as `HostRead.allowed` says. -/
def HostMove.allowed (s : State) : HostMove → Bool
  | .assertReset => s.state != .running
  | .loadCmd words => s.state == .idle && cmdStreamWf s.cfg words
  | .loadId bytes => s.state == .idle && inputBytesWf s.cfg bytes
  | .loadFile bytes => s.state == .idle && inputBytesWf s.cfg bytes
  | .pulseStart => true
  | .read r => r.allowed s

/-- The launch (R302): reset, load the three memories, pulse start. -/
def State.launchWith (s : State) (words : List CmdWord) (idBytes fileBytes : List Byte) : State :=
  ((((s.assertReset).loadCmd words).loadId idBytes).loadFile fileBytes).pulseStart

end Sys2Proof.Machine
end

