-- ==== Sys2Proof/Safety.lean ====
section
/-!
DEFINITION. The vocabulary of the claims: the memories as byte sequences, sequences of commands, what counts as a
sound state of a run (three invariants), and the inverse operations that the cipher stage's claims mention. Nothing
here is part of a step.
-/

namespace Sys2Proof.Machine

/-! ### The memories as sequences -/

/-- The elements of a host-loaded space of length `len`, in index order. -/
def sequenceOf {n : Nat} (m : List (Nat × BitVec n)) (len : Nat) : List (BitVec n) :=
  (List.range len).map fun i => (Memory.read inputUnlisted m i).getD 0

/-- The identifier, `ID[0..ID_LEN-1]` (spec/20_memory.md R61). -/
def State.idBytes (s : State) : List Byte :=
  sequenceOf s.launch.id s.launch.idLen.toNat

/-- The container, `FILE[0..FILE_LEN-1]` (spec/20_memory.md R62). -/
def State.fileBytes (s : State) : List Byte :=
  sequenceOf s.launch.file s.launch.fileLen.toNat

/-- The command stream, `CMD[0..CMD_LEN-1]` (spec/20_memory.md R63). -/
def State.cmdWords (s : State) : List CmdWord :=
  sequenceOf s.launch.cmd s.launch.cmdLen.toNat

/-- The table character of draw `j`, counting from 0, of a generator whose words are `w`: the entry at the draw's top
byte as a number (spec/43_kdf.md R162, R166). -/
def drawnChar (rom : Vector Byte 256) (w : Words) (j : Nat) : Byte :=
  rom.toList.getD ((rngOutput (rngAdvanceBy j w)).toNat / 2 ^ 24) 0

/-- The value of a lower-case hex digit as a number, none for any other byte (spec/43_kdf.md R161), written apart from
the model's `hexval`. -/
def hexDigitOf (ch : Byte) : Option Nat :=
  if 48 ≤ ch.toNat ∧ ch.toNat ≤ 57 then some (ch.toNat - 48)
  else if 97 ≤ ch.toNat ∧ ch.toNat ≤ 102 then some (ch.toNat - 97 + 10)
  else none

/-- Sixteen bytes spelled by the characters of 32 draws: byte `j` is 16 times the digit of draw `2j` plus the digit of
draw `2j + 1` (spec/43_kdf.md R162, R163). -/
def spelledByDraws (rom : Vector Byte 256) (w : Words) (bytes : Block) : Prop :=
  ∀ j < 16, ∃ high low, hexDigitOf (drawnChar rom w (2 * j)) = some high ∧
    hexDigitOf (drawnChar rom w (2 * j + 1)) = some low ∧ (bytes.at j).toNat = 16 * high + low

/-- The marker's bytes in file order, `MAGIC_BYTES` (spec/44_frame.md R180). -/
def magicBytes : List Byte :=
  [0x6E, 0x69, 0x73, 0x61, 0x73, 0x79, 0x73, 0x74]

/-! ### Faults and sequences of commands -/

/-- Exactly the writes of fault entry for a cause other than CryptoError (spec/60_exceptions.md R276). -/
def State.faulting (s : State) (c : Cause) : State :=
  { s with cause := c, faultCp := some s.cp, state := .faulted }

/-- The conditions of R275's table for the commands other than RUN, with `DONE` = 1 among them. -/
def sequenceCondition (s : State) : Instr → Bool
  | .halt => false
  | .crcInit => s.done
  | .crcUpd _ => s.done || !s.crcValid
  | .crcFin => s.done || !s.crcValid || s.seedValid
  | .crcId => s.done || s.seedValid
  | .rngSeed => s.done || !s.seedValid || s.rngValid
  | .rngNext => s.done || !s.rngValid
  | .kdfKey => s.done || !s.rngValid || s.keyValid
  | .kdfIv => s.done || !s.rngValid || !s.keyValid || s.ivValid
  | .frmParse => s.done || s.ctValid
  | .decRun => s.done || !s.keyValid || !s.ivValid || !s.ctValid
  | .run => s.done

/-- Commands executed one after another; a fault ends the sequence (spec/47_control.md R250). -/
def execSeq : List Instr → State → Outcome
  | [], s => .next s
  | i :: is, s =>
    match exec i s with
    | .next t => if t.state = .faulted then .next t else execSeq is t
    | .fault f => .fault f
    | .refused r => .refused r

/-- The state with `CP` and the value of `FAULT_CP` forgotten: what spec/47_control.md R253 compares. -/
def State.eraseCp (s : State) : State :=
  { s with cp := 0, faultCp := s.faultCp.map fun _ => 0 }

/-- The state with another file in `FILE`. -/
def State.withFile (s : State) (file : ByteMemory) (fileLen : Word) : State :=
  { s with launch := { s.launch with file := file, fileLen := fileLen } }

/-- The outcome with its next state changed by `f`. -/
def mapNext (f : State → State) : Outcome → Outcome
  | .next s => .next (f s)
  | .fault r => .fault r
  | .refused r => .refused r

/-! ### Frames -/

/-- Every byte and word of the host-loaded spaces, and the lengths, read as before. -/
def sameInputs (s t : State) : Prop :=
  (∀ a, Memory.read inputUnlisted t.launch.cmd a = Memory.read inputUnlisted s.launch.cmd a) ∧
    (∀ a, Memory.read inputUnlisted t.launch.id a = Memory.read inputUnlisted s.launch.id a) ∧
    (∀ a, Memory.read inputUnlisted t.launch.file a = Memory.read inputUnlisted s.launch.file a) ∧
    t.launch.cmdLen = s.launch.cmdLen ∧ t.launch.idLen = s.launch.idLen ∧ t.launch.fileLen = s.launch.fileLen ∧
    t.cfg = s.cfg

/-- Every byte of `PT` reads as before. -/
def samePt (s t : State) : Prop :=
  ∀ a, t.ptByte a = s.ptByte a

/-- `STATE`, `CAUSE` and `FAULT_CP` are as before, or a fault was raised at `CP`. -/
def sameOrFaulted (s t : State) : Prop :=
  (t.state = s.state ∧ t.cause = s.cause ∧ t.faultCp = s.faultCp) ∨
    (t.state = .faulted ∧ t.faultCp = some s.cp)

/-! ### What counts as a sound state -/

/-- `STATE`, `CAUSE`, `FAULT_CP` and `CP` agree (spec/10_state.md R22, R23, spec/60_exceptions.md R276, R280): a cause
is recorded exactly when the run is FAULTED, and `FAULT_CP` then holds the `CP` at which it stopped and no value
otherwise. -/
def State.FaultRecord (s : State) : Prop :=
  (s.state = .faulted ↔ s.cause ≠ .none) ∧
    s.faultCp = if s.state = .faulted then some s.cp else none

/-- Every memory is in the canonical form. -/
def State.MemoriesCanonical (s : State) : Prop :=
  Memory.wf inputUnlisted s.launch.cmd = true ∧ Memory.wf inputUnlisted s.launch.id = true ∧
    Memory.wf inputUnlisted s.launch.file = true ∧ Memory.wf ptUnlisted s.pt = true

/-- `CT_LEN`, once it exists, is `FILE_LEN - 8` (spec/10_state.md R36). -/
def State.RegionParsed (s : State) : Prop :=
  ∀ n, s.ctLen = some n → 8 ≤ s.launch.fileLen ∧ n = s.launch.fileLen - 8

/-- What exists follows the order of creation (spec/70_reset_and_hazards.md R303 (a), (c); spec/10_state.md R24). -/
def State.CreationOrder (s : State) : Prop :=
  (s.rngValid = true → s.seedValid = true) ∧ (s.rndValid = true → s.rngValid = true) ∧
    (s.keyValid = true → s.rngValid = true) ∧ (s.ivValid = true → s.keyValid = true)

/-- Once the decryption is done, what the run made is discarded, and before that there is no plaintext (spec/10_state.md
R24). -/
def State.DoneDiscards (s : State) : Prop :=
  s.done = s.ptValid ∧
    (s.done = true → s.ctValid = true ∧ s.seed = none ∧ s.w = none ∧ s.rnd = none ∧ s.key = none ∧ s.iv = none)

/-- `PT` holds a value exactly at the indices below `PT_LEN` (spec/20_memory.md R64), and `PT_LEN` is bounded by
`CT_LEN` as spec/10_state.md R37 says. -/
def State.PlaintextExact (s : State) : Prop :=
  (s.ptLen = none → s.pt = []) ∧
    ∀ p n, s.ptLen = some p → s.ctLen = some n →
      s.pt.map Prod.fst = List.range p.toNat ∧
        (0 < n.toNat → p.toNat ≤ n.toNat - 1) ∧ (n.toNat = 0 → p.toNat = 0)

/-- Every value is within the width the configuration gives it (spec/00_scope.md R8): the lengths within `LEN_WIDTH`,
`CP` and `CMD_LEN` within `CP_WIDTH`, and the command words within `CMD_WIDTH`. -/
def State.WithinWidths (s : State) : Prop :=
  (s.launch.idLen.toNat < 2 ^ s.cfg.lenWidth ∧ s.launch.fileLen.toNat < 2 ^ s.cfg.lenWidth ∧
      (∀ n, s.ctLen = some n → n.toNat < 2 ^ s.cfg.lenWidth) ∧
      ∀ n, s.ptLen = some n → n.toNat < 2 ^ s.cfg.lenWidth) ∧
    (s.cp.toNat < 2 ^ s.cfg.cpWidth ∧ s.launch.cmdLen.toNat < 2 ^ s.cfg.cpWidth) ∧
    ∀ w ∈ s.cmdWords, w.toNat < 2 ^ s.cfg.cmdWidth

/-- The lifecycle of an invocation's values. -/
def State.Lifecycle (s : State) : Prop :=
  s.RegionParsed ∧ s.CreationOrder ∧ s.DoneDiscards ∧ s.PlaintextExact ∧ s.WithinWidths

/-! ### Inverses, for the claims about the cipher stage

The CORE does not encrypt (spec/00_scope.md R6); these are what a claim compares its decryption with. -/

/-- Pad-length padding of a plaintext to the block size (spec/45_cipher.md R199). -/
def padded (plain : List Byte) : List Byte :=
  plain ++ List.replicate (16 - plain.length % 16) (BitVec.ofNat 8 (16 - plain.length % 16))

/-- Chained encryption of blocks, the inverse of R198's recurrence. -/
def chainEncrypt (enc : Block → Block) : Block → List Block → List Block
  | _, [] => []
  | chain, p :: ps => enc (xorBlock p chain) :: chainEncrypt enc (enc (xorBlock p chain)) ps

end Sys2Proof.Machine
end

