-- ==== Sys2Proof/Certificates/Slice0/Obligations.lean ====
section
/-!
DEFINITION. The statements for the provers, from the numbered rules of spec/. Each docstring names the rule.
-/

open Sys2Proof Sys2Proof.Machine

/-! ### Encoding (spec/30_encoding.md) -/

/-- Decoding the word of any command gives that command, with its operand (R90 to R93). -/
def Obligations.DecodeOfEncodeIsTheCommand : Prop :=
  ∀ i : Instr, decode (encode i) = .command i

/-- A word that decodes to a command is the one word of that command (R92, R93). -/
def Obligations.EncodeOfDecodeIsTheWord : Prop :=
  ∀ (w : CmdWord) (i : Instr), decode w = .command i → encode i = w

/-- The decoder is the opcode table: a word decodes to a command exactly when it has the pattern of a row of R93, and
is illegal exactly when no row matches it (R92, R93, R94). -/
def Obligations.DecoderIsTheOpcodeTable : Prop :=
  (∀ (w : CmdWord) (i : Instr), decode w = .command i → fitsRow i w = true) ∧
    ∀ w : CmdWord, (∃ why, decode w = .illegal why) ↔ ∀ i, fitsRow i w = false

/-- Words written out from R93 and R94 decode to what they stand for. -/
def Obligations.DecodeOfTableWords : Prop :=
  decode 0x0100 = .command .halt ∧ decode 0x0200 = .command .run ∧ decode 0x1000 = .command .crcInit ∧
    decode 0x1161 = .command (.crcUpd 0x61) ∧ decode 0x11FF = .command (.crcUpd 0xFF) ∧
    decode 0x1200 = .command .crcFin ∧ decode 0x1300 = .command .crcId ∧ decode 0x2000 = .command .rngSeed ∧
    decode 0x2100 = .command .rngNext ∧ decode 0x3000 = .command .kdfKey ∧ decode 0x3100 = .command .kdfIv ∧
    decode 0x4000 = .command .frmParse ∧ decode 0x5000 = .command .decRun ∧
    decode 0x0000 = .illegal (.unknownOpcode 0x00) ∧ decode 0xFFFF = .illegal (.unknownOpcode 0xFF) ∧
    decode 0x1001 = .illegal (.strayImmediate 0x10 0x01)

/-! ### The execute cycle (spec/47_control.md R250) -/

/-- When the word at `CP` decodes to a command, a step is `exec` of that command in that state (R250 stages 1, 2 and
4). That nothing stands around `exec` is the model's choice: stage 3, the single-shot check, is in `exec` itself
(notes/assumptions/13.md, DESIGN CHOICE). -/
def Obligations.StepExecutesDecodedCommand : Prop :=
  ∀ (s : State) (w : CmdWord) (i : Instr), s.state = .running → s.cmdWords[s.cp.toNat]? = some w →
    decode w = .command i → step s = exec i s

/-- A fetch at or past `CMD_LEN` raises FetchPastEnd, and a run that ends well ended at a HALT (R279). -/
def Obligations.FetchPastEndIsRaised : Prop :=
  (∀ s : State, s.state = .running → s.launch.cmdLen.toNat ≤ s.cp.toNat →
      step s = .next (s.faulting .fetchPastEnd)) ∧
    ∀ s t : State, s.state = .running → step s = .next t → t.state = .halted →
      ∃ w, s.cmdWords[s.cp.toNat]? = some w ∧ decode w = .command .halt

/-- A fetched word that matches no row of the opcode table raises IllegalCommand, and nothing of it is executed
(R274). -/
def Obligations.IllegalCommandIsRaised : Prop :=
  ∀ (s : State) (w : CmdWord), s.state = .running → s.cmdWords[s.cp.toNat]? = some w →
    (∀ i, fitsRow i w = false) → step s = .next (s.faulting .illegalCommand)

/-- After the one decryption of the invocation every command but HALT raises SequenceFault, before its own rule
applies (R250 stage 3, R275). -/
def Obligations.AfterDoneOnlyHaltRuns : Prop :=
  ∀ (s : State) (i : Instr), s.done = true →
    (i ≠ .halt → exec i s = .next (s.faulting .sequenceFault)) ∧
      exec .halt s = .next { s with state := .halted }

/-- Outside RUNNING the sequencer does nothing (R250). -/
def Obligations.StepOutsideRunningDoesNothing : Prop :=
  ∀ s : State, s.state ≠ .running → step s = .next s

/-- `STATE`: its four values, and the only transitions there are (spec/10_state.md R22). -/
def Obligations.StateTransitions : Prop :=
  (RunState.code .idle = 0 ∧ RunState.code .running = 1 ∧ RunState.code .halted = 2 ∧
      RunState.code .faulted = 3) ∧
    State.reset.state = .idle ∧ (∀ s : State, s.assertReset.state = .idle) ∧
    (∀ s : State, s.state = .idle → s.pulseStart = { s with state := .running }) ∧
    (∀ s : State, s.state ≠ .idle → s.pulseStart = s) ∧
    (∀ (s : State) (m : HostMove), m ≠ .assertReset → m ≠ .pulseStart → (m.apply s).state = s.state) ∧
    ∀ s t : State, step s = .next t →
      t.state = s.state ∨
        (s.state = .running ∧ t.state = .halted ∧
          ∃ w, s.cmdWords[s.cp.toNat]? = some w ∧ decode w = .command .halt) ∨
        (s.state = .running ∧ t.state = .faulted ∧ t.cause ≠ .none ∧ t.faultCp = some s.cp)

/-- `CP` moves by one, and does not wrap, when a command completes without stopping, and stays at HALT and at every
fault; reset sets it to 0, and no other move of the host and no step outside RUNNING moves it (R254;
spec/10_state.md R21). -/
def Obligations.StepMovesCpByOneOrStops : Prop :=
  (∀ s : State, s.assertReset.cp = 0) ∧
    (∀ (s : State) (m : HostMove), m ≠ .assertReset → (m.apply s).cp = s.cp) ∧
    (∀ s t : State, s.state ≠ .running → step s = .next t → t.cp = s.cp) ∧
    ∀ s t : State, s.state = .running → step s = .next t →
      (t.state = .running ∧ t.cp.toNat = s.cp.toNat + 1) ∨
        ((t.state = .halted ∨ t.state = .faulted) ∧ t.cp = s.cp)

/-- A run ends within the commands left and one step more, so within `CMD_LEN` + 1 steps from `CP` = 0 (R254). -/
def Obligations.RunEndsWithinCommandsLeft : Prop :=
  ∀ s t : State, s.state = .running →
    Sys2Proof.core.run (s.launch.cmdLen.toNat - s.cp.toNat + 1) s = .next t → t.ended = true

/-- A step answers a next state in every state whose parsed region lies in the file: every command is total
(spec/00_scope.md R13, spec/20_memory.md R66). -/
def Obligations.StepIsTotal : Prop :=
  ∀ s : State, s.RegionParsed → ∃ t, step s = .next t

/-! ### Checksum unit (spec/41_crc.md) -/

/-- `CRC.INIT` (R122): its word and its effect, whatever the accumulator and the Seed held. -/
def Obligations.CrcInitStartsChecksum : Prop :=
  encode .crcInit = 0x1000 ∧
    ∀ s : State, s.done = false →
      exec .crcInit s = .next { s with crcAcc := some 0xFFFFFFFF, cp := s.cp + 1 }

/-- `CRC.UPD imm8` (R123): its word and its effect, for every byte. -/
def Obligations.CrcUpdFeedsByte : Prop :=
  (∀ imm8 : Byte, encode (.crcUpd imm8) = 0x1100 + imm8.setWidth 16) ∧
    ∀ (s : State) (imm8 : Byte), s.done = false →
      (s.crcValid = false → exec (.crcUpd imm8) s = .next (s.faulting .sequenceFault)) ∧
        ∀ acc, s.crcAcc = some acc →
          exec (.crcUpd imm8) s =
            .next { s with
              crcAcc := some (crcTab ((acc &&& 0xFF).setWidth 8 ^^^ imm8) ^^^ (acc >>> 8)), cp := s.cp + 1 }

/-- `CRC.FIN` (R124): its word and its effect. -/
def Obligations.CrcFinCreatesSeed : Prop :=
  encode .crcFin = 0x1200 ∧
    ∀ s : State, s.done = false →
      (s.crcValid = false ∨ s.seedValid = true → exec .crcFin s = .next (s.faulting .sequenceFault)) ∧
        ∀ acc, s.crcAcc = some acc → s.seed = none →
          exec .crcFin s = .next { s with seed := some (acc ^^^ 0xFFFFFFFF), crcAcc := none, cp := s.cp + 1 }

/-- `CRC.ID` (R126): its word; the Seed first, then the scan, then the checksum of the identifier. -/
def Obligations.CrcIdChecksumsIdentifier : Prop :=
  encode .crcId = 0x1300 ∧
    ∀ s : State, s.done = false →
      (s.seedValid = true → exec .crcId s = .next (s.faulting .sequenceFault)) ∧
        (s.seed = none → s.cfg.idAsciiCheck = true → (∃ b ∈ s.idBytes, 0x7F < b) →
          exec .crcId s = .next (s.faulting .idNotAscii)) ∧
        (s.seed = none → (s.cfg.idAsciiCheck = true → ∀ b ∈ s.idBytes, ¬ 0x7F < b) →
          exec .crcId s =
            .next { s with seed := some (checksum s.idBytes), crcAcc := none, cp := s.cp + 1 })

/-- R120's iteration written out: one table step is eight of them on the accumulator with the byte added to its low
end, and the checksum is the complement of those steps from 0xFFFFFFFF over the bytes (R120, R121, R127). -/
def Obligations.CrcTableStepIsBitSerial : Prop :=
  let shift := fun v : Word => if v.getLsbD 0 = true then (v >>> 1) ^^^ 0xEDB88320 else v >>> 1
  let bitSerial := fun (acc : Word) (b : Byte) => shift^[8] (acc ^^^ b.setWidth 32)
  (∀ (acc : Word) (b : Byte), crcStep acc b = bitSerial acc b) ∧
    ∀ bytes : List Byte, checksum bytes = bytes.foldl bitSerial 0xFFFFFFFF ^^^ 0xFFFFFFFF

/-- The byte-at-a-time commands are the function: CRC.INIT, one CRC.UPD per byte, CRC.FIN complete and leave the
checksum of the bytes in `SEED` (R125). -/
def Obligations.ByteCommandsComputeChecksum : Prop :=
  ∀ (s : State) (bytes : List Byte), s.state ≠ .faulted → s.done = false → s.seed = none →
    execSeq (.crcInit :: (bytes.map Instr.crcUpd ++ [.crcFin])) s =
      .next { s with
        seed := some (checksum bytes), crcAcc := none, cp := s.cp + BitVec.ofNat 16 (bytes.length + 2) }

/-! ### Generator (spec/42_rng.md) -/

/-- The seeding recurrence in numbers modulo 2^32 (R141). -/
def Obligations.RngSeedRecurrence : Prop :=
  ∀ seed : Word,
    let mix := fun (x : Word) => (x ^^^ (x >>> 30)).toNat
    let w := rngSeed seed
    w.w0.toNat = (0x6C078965 * mix seed + 1) % 2 ^ 32 ∧
      w.w1.toNat = (0x6C078965 * mix w.w0 + 2) % 2 ^ 32 ∧
      w.w2.toNat = (0x6C078965 * mix w.w1 + 3) % 2 ^ 32 ∧
      w.w3.toNat = (0x6C078965 * mix w.w2 + 4) % 2 ^ 32

/-- `RNG.SEED` (R142): its word and its effect. -/
def Obligations.RngSeedCreatesGenerator : Prop :=
  encode .rngSeed = 0x2000 ∧
    ∀ s : State, s.done = false →
      (s.seedValid = false ∨ s.rngValid = true → exec .rngSeed s = .next (s.faulting .sequenceFault)) ∧
        ∀ seed, s.seed = some seed → s.w = none →
          exec .rngSeed s = .next { s with w := some (rngSeed seed), cp := s.cp + 1 }

/-- `RNG.NEXT` (R144): its word and its effect, with the output function written out (R143). -/
def Obligations.RngNextDrawsOutput : Prop :=
  encode .rngNext = 0x2100 ∧
    ∀ s : State, s.done = false →
      (s.rngValid = false → exec .rngNext s = .next (s.faulting .sequenceFault)) ∧
        ∀ w, s.w = some w →
          let a := w.w0 ^^^ (w.w0 <<< 11)
          let c := a ^^^ (a >>> 8) ^^^ w.w3 ^^^ (w.w3 >>> 19)
          exec .rngNext s =
            .next { s with rnd := some c, w := some ⟨w.w1, w.w2, w.w3, c⟩, cp := s.cp + 1 }

/-- After `n` draws each word is an output or a word of the starting state moved down, as R145 (b) lists. -/
def Obligations.WordsAfterDrawsAreOutputs : Prop :=
  ∀ (w : Words) (n : Nat),
    let out := fun k => rngOutput (rngAdvanceBy (k - 1) w)
    (1 ≤ n → (rngAdvanceBy n w).w3 = out n) ∧ (2 ≤ n → (rngAdvanceBy n w).w2 = out (n - 1)) ∧
      (3 ≤ n → (rngAdvanceBy n w).w1 = out (n - 2)) ∧ (4 ≤ n → (rngAdvanceBy n w).w0 = out (n - 3))

/-- The generator's step loses nothing: two states that step to the same words are the same, so the all-zero state
(R145 (a)) is reached from no other. -/
def Obligations.GeneratorStepIsInjective : Prop :=
  ∀ v w : Words, rngAdvance v = rngAdvance w → v = w

/-! ### Derivation (spec/43_kdf.md) -/

/-- `KDF.KEY` (R164, with R161 to R163 written out in numbers): its word; SequenceFault without a generator or with a
key; KdfParseError, with nothing else written, when one of the 32 looked-up characters is no hex digit (R167); else
sixteen bytes from 32 draws, each 16 times the even draw's digit plus the odd draw's. -/
def Obligations.KdfKeyDerivesFromDraws : Prop :=
  encode .kdfKey = 0x3000 ∧
    ∀ s : State, s.done = false →
      (s.rngValid = false ∨ s.keyValid = true →
        exec .kdfKey s = .next (s.faulting .sequenceFault)) ∧
        ∀ w, s.w = some w → s.key = none →
          ((∃ j < 32, hexDigitOf (drawnChar s.cfg.kmtRom w j) = none) →
            exec .kdfKey s = .next (s.faulting .kdfParseError)) ∧
          ((∀ j < 32, hexDigitOf (drawnChar s.cfg.kmtRom w j) ≠ none) →
            ∃ key : Block, spelledByDraws s.cfg.kmtRom w key ∧
              exec .kdfKey s = .next { s with key := some key, w := some (rngAdvanceBy 32 w), cp := s.cp + 1 })

/-- `KDF.IV` (R165, with R161 to R163 written out in numbers): as KDF.KEY, from the words as they stand, after the
key. -/
def Obligations.KdfIvDerivesFromDraws : Prop :=
  encode .kdfIv = 0x3100 ∧
    ∀ s : State, s.done = false →
      (s.rngValid = false ∨ s.keyValid = false ∨ s.ivValid = true →
        exec .kdfIv s = .next (s.faulting .sequenceFault)) ∧
        ∀ w, s.w = some w → s.keyValid = true → s.iv = none →
          ((∃ j < 32, hexDigitOf (drawnChar s.cfg.kmtRom w j) = none) →
            exec .kdfIv s = .next (s.faulting .kdfParseError)) ∧
          ((∀ j < 32, hexDigitOf (drawnChar s.cfg.kmtRom w j) ≠ none) →
            ∃ iv : Block, spelledByDraws s.cfg.kmtRom w iv ∧
              exec .kdfIv s = .next { s with iv := some iv, w := some (rngAdvanceBy 32 w), cp := s.cp + 1 })

/-- Under `KMT_WF` no command raises KdfParseError (R160, R167). -/
def Obligations.WellFormedTableNeverFaults : Prop :=
  ∀ (i : Instr) (s t : State), KmtWf s.cfg.kmtRom → s.cause ≠ .kdfParseError → exec i s = .next t →
    t.cause ≠ .kdfParseError

/-! ### Frame parser (spec/44_frame.md) -/

/-- `FRM.PARSE` (R182): its word; the once-only check, the length, the marker, then `CT_LEN`. -/
def Obligations.FrmParseChecksMarker : Prop :=
  encode .frmParse = 0x4000 ∧
    ∀ s : State, s.done = false →
      (s.ctValid = true → exec .frmParse s = .next (s.faulting .sequenceFault)) ∧
        (s.ctLen = none → s.launch.fileLen.toNat < 8 → exec .frmParse s = .next (s.faulting .formatError)) ∧
        (s.ctLen = none → 8 ≤ s.launch.fileLen.toNat →
          s.fileBytes.drop (s.launch.fileLen.toNat - 8) ≠ magicBytes →
          exec .frmParse s = .next (s.faulting .formatError)) ∧
        (s.ctLen = none → 8 ≤ s.launch.fileLen.toNat →
          s.fileBytes.drop (s.launch.fileLen.toNat - 8) = magicBytes →
          exec .frmParse s = .next { s with ctLen := some (s.launch.fileLen - 8), cp := s.cp + 1 })

/-! ### Cipher stage (spec/45_cipher.md) -/

/-- The chaining recurrence, byte by byte, on a region of `m` blocks. R198 states the recurrence and marks it as general
knowledge (G2 of spec/93_implementation_defined.md); the model follows it as notes/assumptions/11.md says
(PRESUMED). -/
def Obligations.ChainedDecryptionOfBlocks : Prop :=
  ∀ (dec : Block → Block) (iv : Block) (region : List Byte) (m : Nat), region.length = 16 * m →
    let block := fun k => Block.tabulate fun j => region.getD (16 * k + j) 0
    let raw := chainDecrypt dec iv (regionBlocks region)
    raw.length = 16 * m ∧
      ∀ k < m, ∀ i < 16,
        raw[16 * k + i]? =
          some ((dec (block k)).at i ^^^ if k = 0 then iv.at i else region.getD (16 * (k - 1) + i) 0)

/-- Padding removal answers exactly the bytes before a whole pad of 1 to 16 bytes that each hold the pad's length
(R199). -/
def Obligations.PaddingRemovalIsExact : Prop :=
  ∀ raw plain : List Byte, raw ≠ [] → raw.length % 16 = 0 →
    (stripPadding raw = some plain ↔
      ∃ p, 1 ≤ p ∧ p ≤ 16 ∧ raw = plain ++ List.replicate p (BitVec.ofNat 8 p))

/-- Padding removal and chained decryption undo padding and chained encryption, for any block cipher (R199, and R198's
recurrence, which notes/assumptions/11.md marks PRESUMED). -/
def Obligations.DecryptionUndoesEncryption : Prop :=
  ∀ (enc dec : Block → Block), (∀ b, dec (enc b) = b) → ∀ (iv : Block) (plain : List Byte),
    stripPadding (chainDecrypt dec iv (chainEncrypt enc iv (regionBlocks (padded plain)))) = some plain

/-- No tampering goes unnoticed by the plaintext: two different regions of one length never decrypt to the same
plaintext, when the block primitive is injective (R203). -/
def Obligations.TamperedRegionChangesPlaintext : Prop :=
  ∀ dec : Block → Block, Function.Injective dec →
    ∀ (iv : Block) (region tampered plain : List Byte), region.length = tampered.length →
      region.length % 16 = 0 → region ≠ tampered →
      stripPadding (chainDecrypt dec iv (regionBlocks region)) = some plain →
      stripPadding (chainDecrypt dec iv (regionBlocks tampered)) ≠ some plain

/-- `DEC.RUN` (R200): its word; SequenceFault when the key, the IV or the parsed region is missing; CryptoError when
the decryption fails, and no `PT` byte then holds a value (R201); else the plaintext is in `PT` from index 0 and
nowhere else, `PT_LEN` and `DONE` are written, and the Seed, generator, `RND`, key and IV are discarded. The field
`ptEpoch` is the model's own (notes/assumptions/8.md), and nothing is said of it. -/
def Obligations.DecRunDecryptsRegion : Prop :=
  encode .decRun = 0x5000 ∧
    ∀ s : State, s.done = false →
      (s.keyValid = false ∨ s.ivValid = false ∨ s.ctValid = false →
        exec .decRun s = .next (s.faulting .sequenceFault)) ∧
        ∀ (key iv : Block) (n : Word), s.key = some key → s.iv = some iv → s.ctLen = some n →
          n.toNat ≤ s.launch.fileLen.toNat →
          (decrypt s.cfg (s.fileBytes.take n.toNat) key iv = none →
            ∃ epoch, exec .decRun s = .next { s.faulting .cryptoError with pt := [], ptEpoch := epoch }) ∧
          ∀ plain, decrypt s.cfg (s.fileBytes.take n.toNat) key iv = some plain →
            ∃ pt epoch, exec .decRun s =
                .next { s with
                  pt := pt, ptEpoch := epoch, ptLen := some (BitVec.ofNat 32 plain.length), done := true
                  seed := none, w := none, rnd := none, key := none, iv := none, cp := s.cp + 1 } ∧
              ∀ a, Memory.find pt a = plain[a]?

/-- CryptoError is raised exactly when the length is not a multiple of 16, or the region is empty under `fail`, or
the last decrypted byte is 0 or above 16, or the bytes it counts are not all equal to it (R272); `PT` then holds no
value, and nothing else but fault entry is written (R201, R276). -/
def Obligations.CryptoErrorExactly : Prop :=
  ∀ (s : State) (key iv : Block) (n : Word), s.done = false → s.key = some key → s.iv = some iv →
    s.ctLen = some n → n.toNat ≤ s.launch.fileLen.toNat →
    let region := s.fileBytes.take n.toNat
    let raw := chainDecrypt (blockDecrypt s.cfg.cipher key) iv (regionBlocks region)
    let p := (raw.getLastD 0).toNat
    let fails := n.toNat % 16 ≠ 0 ∨ (n.toNat = 0 ∧ s.cfg.emptyCtResult = .fail) ∨
      (n.toNat % 16 = 0 ∧ n.toNat ≠ 0 ∧
        (p = 0 ∨ 16 < p ∨ ∃ i, 1 ≤ i ∧ i ≤ p ∧ (raw.getD (n.toNat - i) 0).toNat ≠ p))
    (fails → ∃ epoch, exec .decRun s = .next { s.faulting .cryptoError with pt := [], ptEpoch := epoch }) ∧
      (¬ fails → ∃ t, exec .decRun s = .next t ∧ t.ptValid = true ∧ t.cause = s.cause)

/-- The host takes the plaintext: after a DEC.RUN that completed, `PT[0..PT_LEN-1]` of the halted CORE is what
`decrypt` gave (R200, spec/47_control.md R255, spec/20_memory.md R64). -/
def Obligations.HaltAfterDecRunDeliversPlaintext : Prop :=
  ∀ (s : State) (key iv : Block) (n : Word) (plain : List Byte), s.state = .running → s.done = false →
    s.key = some key → s.iv = some iv → s.ctLen = some n → n.toNat ≤ s.launch.fileLen.toNat →
    decrypt s.cfg (s.fileBytes.take n.toNat) key iv = some plain →
    ∃ t, execSeq [.decRun, .halt] s = .next t ∧ t.endedWell = true ∧ t.plaintext = some plain

/-! ### The default block primitive (spec/46_aes128.md) -/

/-- The inverse cipher is injective on blocks for each key (R231: a bijection on 16-byte blocks). That this cipher is the
block primitive is notes/assumptions/6.md (PRESUMED: spec/46_aes128.md is general knowledge). -/
def Obligations.AesInverseCipherInjective : Prop :=
  ∀ key : Block, Function.Injective (aes128InvCipher key)

/-! ### HALT and RUN (spec/47_control.md) -/

/-- `HALT` (R251), whatever `DONE` and the valid bits are: its word, its effect, and nothing after it is fetched. -/
def Obligations.HaltEndsRun : Prop :=
  encode .halt = 0x0100 ∧
    ∀ s : State, exec .halt s = .next { s with state := .halted } ∧
      step { s with state := .halted } = .next { s with state := .halted }

/-- `RUN` (R252) where it completes: identifier to Seed, Seed to words, words to key and then IV, file to region,
region to plaintext, and everything the pipeline made but the plaintext and `CT_LEN` discarded. Nothing is said of the model's own field
`ptEpoch` (notes/assumptions/8.md). -/
def Obligations.RunCompletes : Prop :=
  ∀ (s : State) (key iv : Block) (w1 w2 : Words) (plain : List Byte), s.done = false → s.seed = none →
    s.w = none → s.key = none → s.iv = none → s.ctLen = none →
    (s.cfg.idAsciiCheck = true → ∀ b ∈ s.idBytes, ¬ 0x7F < b) →
    deriveSequence s.cfg.kmtRom (rngSeed (checksum s.idBytes)) = some (key, w1) →
    deriveSequence s.cfg.kmtRom w1 = some (iv, w2) →
    8 ≤ s.launch.fileLen.toNat → s.fileBytes.drop (s.launch.fileLen.toNat - 8) = magicBytes →
    decrypt s.cfg (s.fileBytes.take (s.launch.fileLen.toNat - 8)) key iv = some plain →
    ∃ pt epoch, exec .run s =
        .next { s with
          pt := pt, ptEpoch := epoch, ptLen := some (BitVec.ofNat 32 plain.length), done := true
          ctLen := some (s.launch.fileLen - 8), crcAcc := none, rnd := none, cp := s.cp + 1 } ∧
      ∀ a, Memory.find pt a = plain[a]?

/-- RUN and the six-command sequence (R253): the same outcome from any state in which the CORE is not already
stopped by a fault, but for `CP` and the value of `FAULT_CP`: `CP` advances by 1 and by 6, and at a fault stays at
RUN's index and at the faulting command's. -/
def Obligations.RunIsTheSixCommands : Prop :=
  ∀ s : State, s.state ≠ .faulted →
    match exec .run s, execSeq (expandLine .decrypt) s with
    | .next t, .next u =>
      t.eraseCp = u.eraseCp ∧
        ((t.state = s.state ∧ t.cp = s.cp + 1 ∧ u.cp = s.cp + 6) ∨
          (t.state = .faulted ∧ t.cp = s.cp ∧ t.faultCp = some s.cp ∧ u.faultCp = some u.cp))
    | .fault f, .fault g => f = g
    | _, _ => False

/-- Parsing first (R256): where the six commands with FRM.PARSE moved to the front complete, RUN completes with the
same registers, flags and `PT`; where the identifier and the container are both bad, they report FormatError and RUN
reports IdNotAscii. -/
def Obligations.ParseMayComeFirst : Prop :=
  let parseFirst := [Instr.frmParse, .crcId, .rngSeed, .kdfKey, .kdfIv, .decRun]
  (∀ s t : State, s.state ≠ .faulted → execSeq parseFirst s = .next t → t.state ≠ .faulted →
      ∃ u, exec .run s = .next u ∧ u.eraseCp = t.eraseCp) ∧
    ∀ s : State, s.done = false → s.seed = none → s.ctLen = none → s.cfg.idAsciiCheck = true →
      (∃ b ∈ s.idBytes, 0x7F < b) →
      (s.launch.fileLen.toNat < 8 ∨ s.fileBytes.drop (s.launch.fileLen.toNat - 8) ≠ magicBytes) →
      execSeq parseFirst s = .next (s.faulting .formatError) ∧ exec .run s = .next (s.faulting .idNotAscii)

/-! ### Faults (spec/60_exceptions.md) -/

/-- The codes of `CAUSE` (R270). -/
def Obligations.CauseCodes : Prop :=
  Cause.code .none = 0 ∧ Cause.code .formatError = 1 ∧ Cause.code .cryptoError = 2 ∧
    Cause.code .kdfParseError = 3 ∧ Cause.code .idNotAscii = 4 ∧ Cause.code .illegalCommand = 5 ∧
    Cause.code .sequenceFault = 6 ∧ Cause.code .fetchPastEnd = 7

/-- Fault entry (R276) of every command but RUN: `CAUSE`, `FAULT_CP` and `STATE` are written, `CP` is unchanged, and
every other register, every flag and `PT` keep their values, but that `PT` holds no value after CryptoError. -/
def Obligations.FaultEntryIsPrecise : Prop :=
  ∀ (i : Instr) (s t : State), i ≠ .run → s.state ≠ .faulted → exec i s = .next t → t.state = .faulted →
    t.cause ≠ .none ∧ (t.cause ≠ .cryptoError → t = s.faulting t.cause) ∧
      (t.cause = .cryptoError → t = { s.faulting .cryptoError with pt := [], ptEpoch := t.ptEpoch })

/-- SequenceFault is raised exactly on the conditions of R275's table. -/
def Obligations.SequenceFaultExactly : Prop :=
  ∀ (i : Instr) (s t : State), i ≠ .run → s.cause ≠ .sequenceFault → exec i s = .next t →
    (t.cause = .sequenceFault ↔ sequenceCondition s i = true)

/-- In RUN the faults come in pipeline order (R277), each sub-step's SequenceFault before its own faults, with the writes
of the sub-steps before it kept (R253) and whatever is wrong further on. DEC.RUN's SequenceFault, the one place of
R277 not here, cannot arise in RUN: the sub-steps before it made the key, the IV and the region. -/
def Obligations.RunReportsFirstFault : Prop :=
  ∀ s : State, s.done = false →
    (s.seedValid = true → exec .run s = .next (s.faulting .sequenceFault)) ∧
      (s.seed = none → s.cfg.idAsciiCheck = true → (∃ b ∈ s.idBytes, 0x7F < b) →
        exec .run s = .next (s.faulting .idNotAscii)) ∧
      (s.seed = none → (s.cfg.idAsciiCheck = true → ∀ b ∈ s.idBytes, ¬ 0x7F < b) →
        let w0 := rngSeed (checksum s.idBytes)
        let seeded := { s with seed := some (checksum s.idBytes), crcAcc := none }
        (s.rngValid = true → exec .run s = .next (seeded.faulting .sequenceFault)) ∧
          (s.w = none →
            let generated := { seeded with w := some w0 }
            (s.keyValid = true → exec .run s = .next (generated.faulting .sequenceFault)) ∧
              (s.key = none →
                (deriveSequence s.cfg.kmtRom w0 = none →
                  exec .run s = .next (generated.faulting .kdfParseError)) ∧
                ∀ key w1, deriveSequence s.cfg.kmtRom w0 = some (key, w1) →
                  let keyed := { generated with key := some key, w := some w1 }
                  (s.ivValid = true → exec .run s = .next (keyed.faulting .sequenceFault)) ∧
                    (s.iv = none →
                      (deriveSequence s.cfg.kmtRom w1 = none →
                        exec .run s = .next (keyed.faulting .kdfParseError)) ∧
                      ∀ iv w2, deriveSequence s.cfg.kmtRom w1 = some (iv, w2) →
                        let derived := { keyed with iv := some iv, w := some w2 }
                        let n := s.launch.fileLen.toNat
                        (s.ctValid = true → exec .run s = .next (derived.faulting .sequenceFault)) ∧
                          (s.ctLen = none →
                            (n < 8 ∨ s.fileBytes.drop (n - 8) ≠ magicBytes →
                              exec .run s = .next (derived.faulting .formatError)) ∧
                            (8 ≤ n → s.fileBytes.drop (n - 8) = magicBytes →
                              decrypt s.cfg (s.fileBytes.take (n - 8)) key iv = none →
                              ∃ epoch, exec .run s =
                                .next { derived.faulting .cryptoError with
                                  ctLen := some (s.launch.fileLen - 8), pt := [], ptEpoch := epoch }))))))

/-! ### Frames: what a command leaves unchanged -/

/-- The checksum commands change `CRC_ACC`, `SEED` (CRC.FIN and CRC.ID only), `CP` and, at a fault, the fault
registers: every other register, flag and byte of memory is unchanged (spec/41_crc.md R122 to R126). -/
def Obligations.ChecksumFrame : Prop :=
  ∀ (i : Instr) (s t : State), (i = .crcInit ∨ (∃ b, i = .crcUpd b) ∨ i = .crcFin ∨ i = .crcId) →
    exec i s = .next t →
    (i ≠ .crcFin → i ≠ .crcId → t.seed = s.seed) ∧
      t.w = s.w ∧ t.rnd = s.rnd ∧ t.key = s.key ∧ t.iv = s.iv ∧ t.ctLen = s.ctLen ∧ t.ptLen = s.ptLen ∧
      t.done = s.done ∧ sameOrFaulted s t ∧ samePt s t ∧ sameInputs s t

/-- The generator commands change `W`, `RND` (RNG.NEXT only), `CP` and, at a fault, the fault registers
(spec/42_rng.md R142, R144). -/
def Obligations.GeneratorFrame : Prop :=
  ∀ (i : Instr) (s t : State), (i = .rngSeed ∨ i = .rngNext) → exec i s = .next t →
    (i = .rngSeed → t.rnd = s.rnd) ∧
      t.crcAcc = s.crcAcc ∧ t.seed = s.seed ∧ t.key = s.key ∧ t.iv = s.iv ∧ t.ctLen = s.ctLen ∧
      t.ptLen = s.ptLen ∧ t.done = s.done ∧ sameOrFaulted s t ∧ samePt s t ∧ sameInputs s t

/-- The derivation commands change `W`, the register they derive, `CP` and, at a fault, the fault registers; `RND` is
not among them (spec/43_kdf.md R164, R165). -/
def Obligations.DerivationFrame : Prop :=
  ∀ (i : Instr) (s t : State), (i = .kdfKey ∨ i = .kdfIv) → exec i s = .next t →
    (i = .kdfIv → t.key = s.key) ∧ (i = .kdfKey → t.iv = s.iv) ∧
      t.crcAcc = s.crcAcc ∧ t.seed = s.seed ∧ t.rnd = s.rnd ∧ t.ctLen = s.ctLen ∧ t.ptLen = s.ptLen ∧
      t.done = s.done ∧ sameOrFaulted s t ∧ samePt s t ∧ sameInputs s t

/-- FRM.PARSE changes `CT_LEN`, `CP` and, at a fault, the fault registers; HALT changes `STATE` alone
(spec/44_frame.md R182, spec/47_control.md R251). -/
def Obligations.ParserAndHaltFrame : Prop :=
  (∀ s t : State, exec .frmParse s = .next t →
      t.crcAcc = s.crcAcc ∧ t.seed = s.seed ∧ t.w = s.w ∧ t.rnd = s.rnd ∧ t.key = s.key ∧ t.iv = s.iv ∧
        t.ptLen = s.ptLen ∧ t.done = s.done ∧ sameOrFaulted s t ∧ samePt s t ∧ sameInputs s t) ∧
    ∀ s t : State, exec .halt s = .next t →
      t.crcAcc = s.crcAcc ∧ t.seed = s.seed ∧ t.w = s.w ∧ t.rnd = s.rnd ∧ t.key = s.key ∧ t.iv = s.iv ∧
        t.ctLen = s.ctLen ∧ t.ptLen = s.ptLen ∧ t.done = s.done ∧ t.cp = s.cp ∧ t.cause = s.cause ∧
        t.faultCp = s.faultCp ∧ samePt s t ∧ sameInputs s t

/-- DEC.RUN and RUN store only to `PT`, and there only the plaintext: below `PT_LEN` an index holds a written byte,
at `PT_LEN` and above it holds none; the host-loaded spaces are unchanged, and so are `CRC_ACC` and `CT_LEN` by DEC.RUN
(spec/45_cipher.md R200, spec/20_memory.md R64, R76). -/
def Obligations.DecryptionFrame : Prop :=
  ∀ (i : Instr) (s t : State), (i = .decRun ∨ i = .run) → s.state ≠ .faulted → exec i s = .next t →
    (i = .decRun → t.crcAcc = s.crcAcc ∧ t.ctLen = s.ctLen) ∧ sameOrFaulted s t ∧ sameInputs s t ∧
      (t.state ≠ .faulted → ∃ n, t.ptLen = some n ∧ t.done = true ∧
        ∀ a, (a < n.toNat → (Memory.find t.pt a).isSome = true) ∧
          (n.toNat ≤ a → Memory.find t.pt a = none)) ∧
      (t.state = .faulted → t.cause ≠ .cryptoError → samePt s t ∧ t.ptLen = s.ptLen ∧ t.done = s.done)

/-! ### Whole-machine rules -/

/-- No step writes `CMD`, `ID`, `FILE`, a length or a parameter (spec/10_state.md R38, R39; spec/20_memory.md R74). -/
def Obligations.NoStepWritesTheLaunch : Prop :=
  ∀ s t : State, step s = .next t → t.launch = s.launch ∧ t.cfg = s.cfg

/-- The Seed is immutable: a step leaves it as it is, or the decryption completed and it is discarded
(spec/10_state.md R31, R24). -/
def Obligations.SeedIsImmutable : Prop :=
  ∀ (s t : State) (seed : Word), s.seed = some seed → step s = .next t →
    t.seed = some seed ∨ (t.seed = none ∧ s.done = false ∧ t.done = true)

/-- The checksum, generator and derivation commands and HALT do not depend on the file: with another file in `FILE`
they do the same (spec/20_memory.md R76). -/
def Obligations.OnlyParserAndCipherReadFile : Prop :=
  ∀ (i : Instr) (s : State) (file : ByteMemory) (fileLen : Word), i ≠ .frmParse → i ≠ .decRun → i ≠ .run →
    exec i (s.withFile file fileLen) = mapNext (fun t => t.withFile file fileLen) (exec i s)

/-! ### Invariants of the step -/

/-- Every step keeps the agreement of `STATE`, `CAUSE` and `FAULT_CP` (spec/10_state.md R22, R23). -/
def Obligations.StepKeepsFaultRecord : Prop :=
  ∀ s t : State, s.FaultRecord → step s = .next t → t.FaultRecord

/-- Every step keeps every memory in its canonical form, which is the model's own (notes/assumptions/4.md, DESIGN
CHOICE). -/
def Obligations.StepKeepsMemoriesCanonical : Prop :=
  ∀ s t : State, s.MemoriesCanonical → step s = .next t → t.MemoriesCanonical

/-- Every step keeps the lifecycle of the invocation's values (spec/10_state.md R24, R36, R37; spec/20_memory.md
R64), and every length, `CP` and command word within its width (spec/00_scope.md R8, notes/assumptions/12.md). -/
def Obligations.StepKeepsLifecycle : Prop :=
  ∀ s t : State, s.Lifecycle → step s = .next t → t.Lifecycle

/-- The three invariants hold right after reset. The memories' canonical form, and that they are empty at reset, are the
model's own (notes/assumptions/4.md, DESIGN CHOICE). -/
def Obligations.ResetIsSound : Prop :=
  State.reset.FaultRecord ∧ State.reset.MemoriesCanonical ∧ State.reset.Lifecycle

/-! ### Reset, launch and what the host sees -/

/-- The reset values, complete (spec/70_reset_and_hazards.md R301): from any state, with the host's memories and
lengths and the constants not written. -/
def Obligations.ResetValues : Prop :=
  ∀ s : State,
    let r := s.assertReset
    r.cp = 0 ∧ r.state = .idle ∧ r.cause = .none ∧ r.faultCp = none ∧
      (r.crcValid = false ∧ r.seedValid = false ∧ r.rngValid = false ∧ r.rndValid = false ∧
        r.keyValid = false ∧ r.ivValid = false ∧ r.ctValid = false ∧ r.ptValid = false ∧ r.done = false) ∧
      r.status = 0 ∧ r.crcAcc = none ∧ r.seed = none ∧ r.w = none ∧ r.rnd = none ∧ r.key = none ∧
      r.iv = none ∧ r.ctLen = none ∧ r.ptLen = none ∧ (∀ a, r.ptByte a = none) ∧ r.launch = s.launch ∧
      r.cfg = s.cfg

/-- `STATUS`, every field, and its value after reset (spec/10_state.md R25). -/
def Obligations.StatusFields : Prop :=
  State.reset.status = 0 ∧ ∀ s : State,
    s.status.extractLsb' 0 2 = s.state.code ∧ s.status.extractLsb' 2 2 = 0 ∧
      s.status.extractLsb' 4 4 = s.cause.code ∧
      s.status.getLsbD 8 = s.crcValid ∧ s.status.getLsbD 9 = s.seedValid ∧
      s.status.getLsbD 10 = s.rngValid ∧ s.status.getLsbD 11 = s.rndValid ∧
      s.status.getLsbD 12 = s.keyValid ∧ s.status.getLsbD 13 = s.ivValid ∧
      s.status.getLsbD 14 = s.ctValid ∧ s.status.getLsbD 15 = s.ptValid ∧ s.status.getLsbD 16 = s.done ∧
      s.status.extractLsb' 17 15 = 0

/-- The status registers by number, and what the host reads when (spec/10_state.md R26; spec/70_reset_and_hazards.md
R304): `STATUS` always; while RUNNING nothing else; in IDLE `CP` besides; after the stop each register under its
"readable when" condition, and `PT` after HALTED, below `PT_LEN` only. Two of these are the model's readings
(notes/assumptions/9.md, DEDUCED): that `CP`, which R26 calls readable always and R304 forbids while RUNNING, is read in
IDLE and after the stop but not while RUNNING, and that `SEED`, `RND`, `CT_LEN` and `PT_LEN` are read after FAULTED as
after HALTED. -/
def Obligations.StatusRegistersReadWhenValid : Prop :=
  [StatusReg.status, .faultCp, .cp, .seed, .rnd, .ctLen, .ptLen].map StatusReg.number = [0, 1, 2, 3, 4, 5, 6] ∧
    (∀ s : State, s.readStatusReg .status = some s.status) ∧
    (∀ (s : State) (r : StatusReg), r ≠ .status → s.state = .running → s.readStatusReg r = none) ∧
    (∀ s : State, s.state ≠ .running → s.readStatusReg .cp = some (s.cp.setWidth 32)) ∧
    (∀ (s : State) (r : StatusReg), r ≠ .status → r ≠ .cp → s.state = .idle → s.readStatusReg r = none) ∧
    (∀ s : State, s.state = .halted ∨ s.state = .faulted →
      (∀ v, s.state = .faulted → s.faultCp = some v → s.readStatusReg .faultCp = some (v.setWidth 32)) ∧
        (s.state ≠ .faulted → s.readStatusReg .faultCp = none) ∧
        (∀ v, s.readStatusReg .seed = some v ↔ s.seedValid = true ∧ s.seed = some v) ∧
        (∀ v, s.readStatusReg .rnd = some v ↔ s.rndValid = true ∧ s.rnd = some v) ∧
        (∀ v, s.readStatusReg .ctLen = some v ↔ s.ctValid = true ∧ s.ctLen = some v) ∧
        ∀ v, s.readStatusReg .ptLen = some v ↔ s.ptValid = true ∧ s.ptLen = some v) ∧
    ∀ (s : State) (a : Nat) (b : Byte), s.readPt a = some b ↔
      s.state = .halted ∧ (∃ n, s.ptLen = some n ∧ a < n.toNat) ∧ Memory.find s.pt a = some b

/-- The launch loads what the host gives: after it the CORE is RUNNING at `CP` = 0 and the three spaces hold the
host's sequences (spec/70_reset_and_hazards.md R302). That the memories are then in canonical form is the model's own
(notes/assumptions/4.md, DESIGN CHOICE); the widths the sequences must fit are the configuration's
(notes/assumptions/12.md). -/
def Obligations.LaunchLoadsSequences : Prop :=
  ∀ (s : State) (words : List CmdWord) (idBytes fileBytes : List Byte), s.cfg.widthsFit = true →
    cmdStreamWf s.cfg words = true → inputBytesWf s.cfg idBytes = true → inputBytesWf s.cfg fileBytes = true →
    let t := s.launchWith words idBytes fileBytes
    t.state = .running ∧ t.cp = 0 ∧ t.cmdWords = words ∧ t.idBytes = idBytes ∧ t.fileBytes = fileBytes ∧
      t.cfg = s.cfg ∧ t.WithinWidths ∧ t.MemoriesCanonical
end

