-- ==== Sys2Proof/Laws/Memory.lean ====
section
/-!
SUPPORT. The memories: a read after a write, the canonical form kept by every memory operation, and what the access
primitives answer.
-/

namespace Sys2Proof.Machine

variable {α : Type} [DecidableEq α]

theorem Memory.wf_cons {u : Option α} {a : Nat} {v : α} {m : List (Nat × α)} :
    Memory.wf u ((a, v) :: m) = true ↔
      (∀ c ∈ m, a < c.1) ∧ u ≠ some v ∧ Memory.wf u m = true := by
  simp [Memory.wf, and_assoc]

/-- Every entry a write leaves was there before, or is at the address written. -/
theorem Memory.mem_write {u : Option α} {m : List (Nat × α)} {a : Nat} {v : α} {c : Nat × α}
    (h : c ∈ Memory.write u m a v) : c ∈ m ∨ c.1 = a := by
  induction m with
  | nil => simp only [Memory.write] at h; split at h <;> simp_all
  | cons e m ih =>
    obtain ⟨b, x⟩ := e
    simp only [Memory.write] at h
    split at h
    · split at h <;> simp_all; rcases h with rfl | h | h <;> simp_all
    · split at h
      · split at h <;> simp_all
        rcases h with rfl | h <;> simp_all
      · rcases List.mem_cons.1 h with rfl | h
        · simp
        · rcases ih h with h | h <;> simp [h]

/-- A write keeps the canonical form. -/
theorem Memory.wf_write {u : Option α} {m : List (Nat × α)} (hm : Memory.wf u m = true) (a : Nat) (v : α) :
    Memory.wf u (Memory.write u m a v) = true := by
  induction m with
  | nil => simp only [Memory.write]; split <;> simp_all [Memory.wf]
  | cons e m ih =>
    obtain ⟨b, x⟩ := e
    obtain ⟨hb, hx, hm'⟩ := Memory.wf_cons.1 hm
    simp only [Memory.write]
    split
    · rename_i hab
      split
      · exact hm
      · rename_i hv
        refine Memory.wf_cons.2 ⟨fun c hc => ?_, hv, hm⟩
        rcases List.mem_cons.1 hc with rfl | hc
        · exact hab
        · exact hab.trans (hb c hc)
    · split
      · rename_i hab
        split
        · exact hm'
        · rename_i hv
          subst hab
          exact Memory.wf_cons.2 ⟨hb, hv, hm'⟩
      · rename_i h1 h2
        refine Memory.wf_cons.2 ⟨fun c hc => ?_, hx, ih hm'⟩
        rcases Memory.mem_write hc with hc | hc
        · exact hb c hc
        · omega

/-- Writing a run of elements keeps the canonical form. -/
theorem Memory.wf_writeAll {u : Option α} {m : List (Nat × α)} (hm : Memory.wf u m = true) (a : Nat)
    (vs : List α) : Memory.wf u (Memory.writeAll u m a vs) = true := by
  induction vs generalizing m a with
  | nil => exact hm
  | cons v vs ih => exact ih (Memory.wf_write hm a v) (a + 1)

omit [DecidableEq α] in
theorem Memory.find_none_of_lt {m : List (Nat × α)} {a : Nat} (h : ∀ c ∈ m, a < c.1) :
    Memory.find m a = none := by
  induction m with
  | nil => rfl
  | cons e m ih =>
    obtain ⟨b, x⟩ := e
    have hb : a < b := h (b, x) (by simp)
    simp only [Memory.find, if_neg (by omega : ¬ b = a)]
    exact ih fun c hc => h c (by simp [hc])

/-- What is listed at an address after a write. -/
theorem Memory.find_write {u : Option α} {m : List (Nat × α)} (hm : Memory.wf u m = true) (a : Nat) (v : α)
    (b : Nat) :
    Memory.find (Memory.write u m a v) b =
      if b = a then (if u = some v then none else some v) else Memory.find m b := by
  induction m with
  | nil =>
    by_cases hv : u = some v <;> by_cases hb : b = a <;> simp [Memory.write, Memory.find, hv, hb]
    exact fun h => hb h.symm
  | cons e m ih =>
    obtain ⟨c, x⟩ := e
    obtain ⟨hc, hx, hm'⟩ := Memory.wf_cons.1 hm
    simp only [Memory.write]
    by_cases hac : a < c
    · rw [if_pos hac]
      have hfind : Memory.find ((c, x) :: m) a = none :=
        Memory.find_none_of_lt fun d hd => by
          rcases List.mem_cons.1 hd with rfl | hd
          · exact hac
          · exact hac.trans (hc d hd)
      by_cases hv : u = some v <;> by_cases hb : b = a <;> simp [hv, hb]
      · exact hfind
      · simp [Memory.find]
      · simp [Memory.find, Ne.symm hb]
    · rw [if_neg hac]
      by_cases hae : a = c
      · subst hae
        rw [if_pos rfl]
        by_cases hv : u = some v <;> by_cases hb : b = a <;> simp [Memory.find, hv, hb]
        · exact Memory.find_none_of_lt hc
        · simp [Ne.symm hb]
        · simp [Ne.symm hb]
      · rw [if_neg hae]
        simp only [Memory.find, ih hm']
        by_cases hb : b = a
        · subst hb
          rw [if_neg (by omega : ¬ c = b), if_pos rfl]
          simp
        · simp [hb]

/-- A read after a write: the value written at its address, what was read before at any other. -/
theorem Memory.read_write {u : Option α} {m : List (Nat × α)} (hm : Memory.wf u m = true) (a : Nat) (v : α)
    (b : Nat) :
    Memory.read u (Memory.write u m a v) b = if b = a then some v else Memory.read u m b := by
  unfold Memory.read
  rw [Memory.find_write hm]
  by_cases hb : b = a <;> simp [hb]
  by_cases hv : u = some v <;> simp [hv]

/-- A read after a run of writes. -/
theorem Memory.read_writeAll {u : Option α} {m : List (Nat × α)} (hm : Memory.wf u m = true) (a : Nat)
    (vs : List α) (b : Nat) :
    Memory.read u (Memory.writeAll u m a vs) b =
      if h : a ≤ b ∧ b - a < vs.length then some (vs[b - a]'h.2) else Memory.read u m b := by
  induction vs generalizing m a with
  | nil => simp [Memory.writeAll]
  | cons v vs ih =>
    rw [Memory.writeAll, ih (Memory.wf_write hm a v), Memory.read_write hm]
    by_cases h1 : a + 1 ≤ b ∧ b - (a + 1) < vs.length
    · have h2 : a ≤ b ∧ b - a < (v :: vs).length := by simp; omega
      rw [dif_pos h1, dif_pos h2]
      congr 1
      have : b - a = (b - (a + 1)) + 1 := by omega
      simp [this]
    · rw [dif_neg h1]
      by_cases hb : b = a
      · subst hb
        simp
      · have h2 : ¬ (a ≤ b ∧ b - a < (v :: vs).length) := by simp; omega
        rw [dif_neg h2, if_neg hb]

omit [DecidableEq α] in
/-- Where nothing reads as unlisted, a read is the listed element. -/
theorem Memory.read_none (m : List (Nat × α)) (a : Nat) : Memory.read none m a = Memory.find m a := by
  simp [Memory.read]

/-- Writing past every listed address of a memory that lists all it holds appends the entry. -/
theorem Memory.write_none_append {m : List (Nat × α)} {a : Nat} (h : ∀ c ∈ m, c.1 < a) (v : α) :
    Memory.write none m a v = m ++ [(a, v)] := by
  induction m with
  | nil => simp [Memory.write]
  | cons e m ih =>
    obtain ⟨b, x⟩ := e
    have hb : b < a := h (b, x) (by simp)
    simp only [Memory.write, if_neg (by omega : ¬ a < b), if_neg (by omega : ¬ a = b), List.cons_append]
    rw [ih fun c hc => h c (by simp [hc])]

/-- The addresses listed after writing a run past every listed address. -/
theorem Memory.keys_writeAll_none {m : List (Nat × α)} {a : Nat} (h : ∀ c ∈ m, c.1 < a) (vs : List α) :
    (Memory.writeAll none m a vs).map Prod.fst = m.map Prod.fst ++ List.range' a vs.length := by
  induction vs generalizing m a with
  | nil => simp [Memory.writeAll]
  | cons v vs ih =>
    rw [Memory.writeAll, Memory.write_none_append h, ih]
    · simp [List.range'_succ]
    · intro c hc
      rcases List.mem_append.1 hc with hc | hc
      · have := h c hc; omega
      · simp only [List.mem_singleton] at hc; subst hc; simp

/-! ### The access primitives -/

theorem memRead_inRange {n : Nat} (m : List (Nat × BitVec n)) {len addr count : Nat} (h : addr + count ≤ len) :
    memRead m len addr count =
      some ((List.range count).map fun i => (Memory.read inputUnlisted m (addr + i)).getD 0) :=
  if_pos h

theorem memRead_outOfRange {n : Nat} (m : List (Nat × BitVec n)) {len addr count : Nat}
    (h : len < addr + count) : memRead m len addr count = none :=
  if_neg (by omega)

/-- A run read in range is the run of the space's sequence. -/
theorem memRead_eq_sequence {n : Nat} (m : List (Nat × BitVec n)) {len addr count : Nat}
    (h : addr + count ≤ len) :
    memRead m len addr count = some (((sequenceOf m len).drop addr).take count) := by
  rw [memRead_inRange m h]
  congr 1
  apply List.ext_getElem
  · simp [sequenceOf]; omega
  · intro i h1 h2
    simp [sequenceOf]

/-- CRC.ID's operand is the identifier (spec/41_crc.md R126). -/
theorem readId_eq (s : State) : readId s = some s.idBytes := by
  rw [readId, memRead_eq_sequence _ (by omega)]
  simp [State.idBytes, sequenceOf]

/-- FRM.PARSE's operand is the file's last eight bytes (spec/44_frame.md R182). -/
theorem readTrailer_eq (s : State) (h : 8 ≤ s.launch.fileLen.toNat) :
    readTrailer s = some (s.fileBytes.drop (s.launch.fileLen.toNat - 8)) := by
  rw [readTrailer, memRead_eq_sequence _ (by omega)]
  congr 1
  apply List.take_of_length_le
  simp [sequenceOf]; omega

/-- DEC.RUN's operand is the ciphertext region, the file's first `CT_LEN` bytes (spec/45_cipher.md R200). -/
theorem readRegion_eq (s : State) (n : Word) (h : n.toNat ≤ s.launch.fileLen.toNat) :
    readRegion s n = some (s.fileBytes.take n.toNat) := by
  rw [readRegion, memRead_eq_sequence _ (by omega)]
  simp [State.fileBytes]

/-- The fetched word at an index inside the command stream (spec/47_control.md R250). -/
theorem readCmd_eq (s : State) (a : Nat) (h : a < s.launch.cmdLen.toNat) :
    readCmd s a = some ((Memory.read inputUnlisted s.launch.cmd a).getD 0) := by
  rw [readCmd, memRead_inRange _ (by omega)]
  rfl

/-- A write of `PT` that fits gives a memory in canonical form that lists exactly the indices written. -/
theorem memWrite_empty (v : List Byte) (h : v.length ≤ 2 ^ 32) :
    ∃ pt, memWrite [] 0 v = some pt ∧ Memory.wf ptUnlisted pt = true ∧
      pt.map Prod.fst = List.range v.length ∧ ∀ a, Memory.find pt a = v[a]? := by
  refine ⟨Memory.writeAll ptUnlisted [] 0 v, if_pos (by omega), Memory.wf_writeAll rfl 0 v, ?_, fun a => ?_⟩
  · rw [ptUnlisted, Memory.keys_writeAll_none (by simp), List.range_eq_range']
    simp
  · have := Memory.read_writeAll (u := ptUnlisted) (m := []) rfl 0 v a
    rw [ptUnlisted, Memory.read_none] at this
    rw [ptUnlisted, this]
    by_cases h : a < v.length <;> simp [h, Memory.read, Memory.find]

end Sys2Proof.Machine
end

