-- ==== Sys2Proof/Laws/State.lean ====
section
/-!
SUPPORT. One lemma per field per named update of the state, true by `rfl`: no later proof unfolds a record update.
For `takeFault`, which branches on the cause, one lemma per field that the branch does not touch, and the two
equations.
-/

namespace Sys2Proof.Machine

/-! ### `State.advance` -/

@[simp] theorem State.advance_state (s : State) : (s.advance).state = s.state := rfl
@[simp] theorem State.advance_cp (s : State) : (s.advance).cp = s.cp + 1 := rfl
@[simp] theorem State.advance_cause (s : State) : (s.advance).cause = s.cause := rfl
@[simp] theorem State.advance_faultCp (s : State) : (s.advance).faultCp = s.faultCp := rfl
@[simp] theorem State.advance_crcAcc (s : State) : (s.advance).crcAcc = s.crcAcc := rfl
@[simp] theorem State.advance_seed (s : State) : (s.advance).seed = s.seed := rfl
@[simp] theorem State.advance_w (s : State) : (s.advance).w = s.w := rfl
@[simp] theorem State.advance_rnd (s : State) : (s.advance).rnd = s.rnd := rfl
@[simp] theorem State.advance_key (s : State) : (s.advance).key = s.key := rfl
@[simp] theorem State.advance_iv (s : State) : (s.advance).iv = s.iv := rfl
@[simp] theorem State.advance_ctLen (s : State) : (s.advance).ctLen = s.ctLen := rfl
@[simp] theorem State.advance_ptLen (s : State) : (s.advance).ptLen = s.ptLen := rfl
@[simp] theorem State.advance_done (s : State) : (s.advance).done = s.done := rfl
@[simp] theorem State.advance_pt (s : State) : (s.advance).pt = s.pt := rfl
@[simp] theorem State.advance_ptEpoch (s : State) : (s.advance).ptEpoch = s.ptEpoch := rfl
@[simp] theorem State.advance_launch (s : State) : (s.advance).launch = s.launch := rfl
@[simp] theorem State.advance_cfg (s : State) : (s.advance).cfg = s.cfg := rfl

/-! ### `State.recordFault` -/

@[simp] theorem State.recordFault_state (s : State) (c : Cause) : (s.recordFault c).state = .faulted := rfl
@[simp] theorem State.recordFault_cp (s : State) (c : Cause) : (s.recordFault c).cp = s.cp := rfl
@[simp] theorem State.recordFault_cause (s : State) (c : Cause) : (s.recordFault c).cause = c := rfl
@[simp] theorem State.recordFault_faultCp (s : State) (c : Cause) : (s.recordFault c).faultCp = some s.cp := rfl
@[simp] theorem State.recordFault_crcAcc (s : State) (c : Cause) : (s.recordFault c).crcAcc = s.crcAcc := rfl
@[simp] theorem State.recordFault_seed (s : State) (c : Cause) : (s.recordFault c).seed = s.seed := rfl
@[simp] theorem State.recordFault_w (s : State) (c : Cause) : (s.recordFault c).w = s.w := rfl
@[simp] theorem State.recordFault_rnd (s : State) (c : Cause) : (s.recordFault c).rnd = s.rnd := rfl
@[simp] theorem State.recordFault_key (s : State) (c : Cause) : (s.recordFault c).key = s.key := rfl
@[simp] theorem State.recordFault_iv (s : State) (c : Cause) : (s.recordFault c).iv = s.iv := rfl
@[simp] theorem State.recordFault_ctLen (s : State) (c : Cause) : (s.recordFault c).ctLen = s.ctLen := rfl
@[simp] theorem State.recordFault_ptLen (s : State) (c : Cause) : (s.recordFault c).ptLen = s.ptLen := rfl
@[simp] theorem State.recordFault_done (s : State) (c : Cause) : (s.recordFault c).done = s.done := rfl
@[simp] theorem State.recordFault_pt (s : State) (c : Cause) : (s.recordFault c).pt = s.pt := rfl
@[simp] theorem State.recordFault_ptEpoch (s : State) (c : Cause) : (s.recordFault c).ptEpoch = s.ptEpoch := rfl
@[simp] theorem State.recordFault_launch (s : State) (c : Cause) : (s.recordFault c).launch = s.launch := rfl
@[simp] theorem State.recordFault_cfg (s : State) (c : Cause) : (s.recordFault c).cfg = s.cfg := rfl

/-! ### `State.scramblePt` -/

@[simp] theorem State.scramblePt_state (s : State) : (s.scramblePt).state = s.state := rfl
@[simp] theorem State.scramblePt_cp (s : State) : (s.scramblePt).cp = s.cp := rfl
@[simp] theorem State.scramblePt_cause (s : State) : (s.scramblePt).cause = s.cause := rfl
@[simp] theorem State.scramblePt_faultCp (s : State) : (s.scramblePt).faultCp = s.faultCp := rfl
@[simp] theorem State.scramblePt_crcAcc (s : State) : (s.scramblePt).crcAcc = s.crcAcc := rfl
@[simp] theorem State.scramblePt_seed (s : State) : (s.scramblePt).seed = s.seed := rfl
@[simp] theorem State.scramblePt_w (s : State) : (s.scramblePt).w = s.w := rfl
@[simp] theorem State.scramblePt_rnd (s : State) : (s.scramblePt).rnd = s.rnd := rfl
@[simp] theorem State.scramblePt_key (s : State) : (s.scramblePt).key = s.key := rfl
@[simp] theorem State.scramblePt_iv (s : State) : (s.scramblePt).iv = s.iv := rfl
@[simp] theorem State.scramblePt_ctLen (s : State) : (s.scramblePt).ctLen = s.ctLen := rfl
@[simp] theorem State.scramblePt_ptLen (s : State) : (s.scramblePt).ptLen = s.ptLen := rfl
@[simp] theorem State.scramblePt_done (s : State) : (s.scramblePt).done = s.done := rfl
@[simp] theorem State.scramblePt_pt (s : State) : (s.scramblePt).pt = [] := rfl
@[simp] theorem State.scramblePt_ptEpoch (s : State) : (s.scramblePt).ptEpoch = s.ptEpoch + 1 := rfl
@[simp] theorem State.scramblePt_launch (s : State) : (s.scramblePt).launch = s.launch := rfl
@[simp] theorem State.scramblePt_cfg (s : State) : (s.scramblePt).cfg = s.cfg := rfl

/-! ### `State.discard` -/

@[simp] theorem State.discard_state (s : State) : (s.discard).state = s.state := rfl
@[simp] theorem State.discard_cp (s : State) : (s.discard).cp = s.cp := rfl
@[simp] theorem State.discard_cause (s : State) : (s.discard).cause = s.cause := rfl
@[simp] theorem State.discard_faultCp (s : State) : (s.discard).faultCp = s.faultCp := rfl
@[simp] theorem State.discard_crcAcc (s : State) : (s.discard).crcAcc = s.crcAcc := rfl
@[simp] theorem State.discard_seed (s : State) : (s.discard).seed = none := rfl
@[simp] theorem State.discard_w (s : State) : (s.discard).w = none := rfl
@[simp] theorem State.discard_rnd (s : State) : (s.discard).rnd = none := rfl
@[simp] theorem State.discard_key (s : State) : (s.discard).key = none := rfl
@[simp] theorem State.discard_iv (s : State) : (s.discard).iv = none := rfl
@[simp] theorem State.discard_ctLen (s : State) : (s.discard).ctLen = s.ctLen := rfl
@[simp] theorem State.discard_ptLen (s : State) : (s.discard).ptLen = s.ptLen := rfl
@[simp] theorem State.discard_done (s : State) : (s.discard).done = s.done := rfl
@[simp] theorem State.discard_pt (s : State) : (s.discard).pt = s.pt := rfl
@[simp] theorem State.discard_ptEpoch (s : State) : (s.discard).ptEpoch = s.ptEpoch := rfl
@[simp] theorem State.discard_launch (s : State) : (s.discard).launch = s.launch := rfl
@[simp] theorem State.discard_cfg (s : State) : (s.discard).cfg = s.cfg := rfl

/-! ### `State.completeDecryption` -/

@[simp] theorem State.completeDecryption_state (s : State) (p : List Byte) (m : ByteMemory) : (s.completeDecryption p m).state = s.state := rfl
@[simp] theorem State.completeDecryption_cp (s : State) (p : List Byte) (m : ByteMemory) : (s.completeDecryption p m).cp = s.cp := rfl
@[simp] theorem State.completeDecryption_cause (s : State) (p : List Byte) (m : ByteMemory) : (s.completeDecryption p m).cause = s.cause := rfl
@[simp] theorem State.completeDecryption_faultCp (s : State) (p : List Byte) (m : ByteMemory) : (s.completeDecryption p m).faultCp = s.faultCp := rfl
@[simp] theorem State.completeDecryption_crcAcc (s : State) (p : List Byte) (m : ByteMemory) : (s.completeDecryption p m).crcAcc = s.crcAcc := rfl
@[simp] theorem State.completeDecryption_seed (s : State) (p : List Byte) (m : ByteMemory) : (s.completeDecryption p m).seed = none := rfl
@[simp] theorem State.completeDecryption_w (s : State) (p : List Byte) (m : ByteMemory) : (s.completeDecryption p m).w = none := rfl
@[simp] theorem State.completeDecryption_rnd (s : State) (p : List Byte) (m : ByteMemory) : (s.completeDecryption p m).rnd = none := rfl
@[simp] theorem State.completeDecryption_key (s : State) (p : List Byte) (m : ByteMemory) : (s.completeDecryption p m).key = none := rfl
@[simp] theorem State.completeDecryption_iv (s : State) (p : List Byte) (m : ByteMemory) : (s.completeDecryption p m).iv = none := rfl
@[simp] theorem State.completeDecryption_ctLen (s : State) (p : List Byte) (m : ByteMemory) : (s.completeDecryption p m).ctLen = s.ctLen := rfl
@[simp] theorem State.completeDecryption_ptLen (s : State) (p : List Byte) (m : ByteMemory) : (s.completeDecryption p m).ptLen = some (BitVec.ofNat 32 p.length) := rfl
@[simp] theorem State.completeDecryption_done (s : State) (p : List Byte) (m : ByteMemory) : (s.completeDecryption p m).done = true := rfl
@[simp] theorem State.completeDecryption_pt (s : State) (p : List Byte) (m : ByteMemory) : (s.completeDecryption p m).pt = m := rfl
@[simp] theorem State.completeDecryption_ptEpoch (s : State) (p : List Byte) (m : ByteMemory) : (s.completeDecryption p m).ptEpoch = s.ptEpoch + 1 := rfl
@[simp] theorem State.completeDecryption_launch (s : State) (p : List Byte) (m : ByteMemory) : (s.completeDecryption p m).launch = s.launch := rfl
@[simp] theorem State.completeDecryption_cfg (s : State) (p : List Byte) (m : ByteMemory) : (s.completeDecryption p m).cfg = s.cfg := rfl

/-! ### `State.takeFault` -/

theorem State.takeFault_cryptoError (s : State) :
    s.takeFault .cryptoError = (s.recordFault .cryptoError).scramblePt := rfl

theorem State.takeFault_other (s : State) {c : Cause} (h : c ≠ .cryptoError) :
    s.takeFault c = s.recordFault c := if_neg h

@[simp] theorem State.takeFault_state (s : State) (c : Cause) : (s.takeFault c).state = .faulted := by
  unfold State.takeFault; split <;> rfl
@[simp] theorem State.takeFault_cp (s : State) (c : Cause) : (s.takeFault c).cp = s.cp := by
  unfold State.takeFault; split <;> rfl
@[simp] theorem State.takeFault_cause (s : State) (c : Cause) : (s.takeFault c).cause = c := by
  unfold State.takeFault; split <;> rfl
@[simp] theorem State.takeFault_faultCp (s : State) (c : Cause) : (s.takeFault c).faultCp = some s.cp := by
  unfold State.takeFault; split <;> rfl
@[simp] theorem State.takeFault_crcAcc (s : State) (c : Cause) : (s.takeFault c).crcAcc = s.crcAcc := by
  unfold State.takeFault; split <;> rfl
@[simp] theorem State.takeFault_seed (s : State) (c : Cause) : (s.takeFault c).seed = s.seed := by
  unfold State.takeFault; split <;> rfl
@[simp] theorem State.takeFault_w (s : State) (c : Cause) : (s.takeFault c).w = s.w := by
  unfold State.takeFault; split <;> rfl
@[simp] theorem State.takeFault_rnd (s : State) (c : Cause) : (s.takeFault c).rnd = s.rnd := by
  unfold State.takeFault; split <;> rfl
@[simp] theorem State.takeFault_key (s : State) (c : Cause) : (s.takeFault c).key = s.key := by
  unfold State.takeFault; split <;> rfl
@[simp] theorem State.takeFault_iv (s : State) (c : Cause) : (s.takeFault c).iv = s.iv := by
  unfold State.takeFault; split <;> rfl
@[simp] theorem State.takeFault_ctLen (s : State) (c : Cause) : (s.takeFault c).ctLen = s.ctLen := by
  unfold State.takeFault; split <;> rfl
@[simp] theorem State.takeFault_ptLen (s : State) (c : Cause) : (s.takeFault c).ptLen = s.ptLen := by
  unfold State.takeFault; split <;> rfl
@[simp] theorem State.takeFault_done (s : State) (c : Cause) : (s.takeFault c).done = s.done := by
  unfold State.takeFault; split <;> rfl
@[simp] theorem State.takeFault_launch (s : State) (c : Cause) : (s.takeFault c).launch = s.launch := by
  unfold State.takeFault; split <;> rfl
@[simp] theorem State.takeFault_cfg (s : State) (c : Cause) : (s.takeFault c).cfg = s.cfg := by
  unfold State.takeFault; split <;> rfl

end Sys2Proof.Machine
end

