-- ==== Sys2Proof/Laws/Bodies.lean ====
section
/-!
SUPPORT. The shared operations on bodies and the commands' bodies: for each, one lemma that says everything it can
give. Later proofs cite these and do not unfold a body.
-/

namespace Sys2Proof.Machine

/-! ### Shared operations -/

theorem SubStep.andThen_done {r : SubStep} {s : State} (h : r = .done s) (next : State → SubStep) :
    r.andThen next = next s := by subst h; rfl

theorem SubStep.andThen_raise {r : SubStep} {c : Cause} {s : State} (h : r = .raise c s)
    (next : State → SubStep) : r.andThen next = .raise c s := by subst h; rfl

theorem SubStep.andThen_stuck {r : SubStep} {f : Fault} (h : r = .stuck f) (next : State → SubStep) :
    r.andThen next = .stuck f := by subst h; rfl

/-- A body followed by another gives the second's result, or stops as the first did. -/
theorem SubStep.andThen_cases (r : SubStep) (next : State → SubStep) :
    (∃ s, r = .done s ∧ r.andThen next = next s) ∨ (∃ c s, r = .raise c s ∧ r.andThen next = .raise c s) ∨
      ∃ f, r = .stuck f ∧ r.andThen next = .stuck f := by
  cases r with
  | done s => exact .inl ⟨s, rfl, rfl⟩
  | raise c s => exact .inr (.inl ⟨c, s, rfl, rfl⟩)
  | stuck f => exact .inr (.inr ⟨f, rfl, rfl⟩)

/-- The next state of a finished body: the body is done and `CP` advances, or it raised a fault. -/
theorem SubStep.finish_next {r : SubStep} {t : State} (h : r.finish = .next t) :
    (∃ u, r = .done u ∧ t = u.advance) ∨ ∃ c u, r = .raise c u ∧ t = u.takeFault c := by
  cases r with
  | done u => exact .inl ⟨u, rfl, by injection h with h; exact h.symm⟩
  | raise c u => exact .inr ⟨c, u, rfl, by injection h with h; exact h.symm⟩
  | stuck f => cases h

theorem runCommand_done {s : State} (h : s.done = true) (body : State → SubStep) :
    runCommand s body = .next (s.takeFault .sequenceFault) := if_pos h

theorem runCommand_ready {s : State} (h : s.done = false) (body : State → SubStep) :
    runCommand s body = (body s).finish := by simp [runCommand, h]

/-- Everything a command other than HALT can do when it answers a next state. -/
theorem runCommand_next {s t : State} {body : State → SubStep} (h : runCommand s body = .next t) :
    (s.done = true ∧ t = s.takeFault .sequenceFault) ∨
      s.done = false ∧ ((∃ u, body s = .done u ∧ t = u.advance) ∨
        ∃ c u, body s = .raise c u ∧ t = u.takeFault c) := by
  cases hd : s.done with
  | true => rw [runCommand_done hd] at h; injection h with h; exact .inl ⟨rfl, h.symm⟩
  | false => rw [runCommand_ready hd] at h; exact .inr ⟨rfl, SubStep.finish_next h⟩

/-! ### The commands' bodies -/

theorem crcUpdBody_cases (b : Byte) (s : State) :
    (s.crcAcc = none ∧ crcUpdBody b s = .raise .sequenceFault s) ∨
      ∃ acc, s.crcAcc = some acc ∧ crcUpdBody b s = .done { s with crcAcc := some (crcStep acc b) } := by
  cases h : s.crcAcc <;> simp [crcUpdBody, requireValue, h]

theorem crcFinBody_cases (s : State) :
    ((s.crcAcc = none ∨ s.seed.isSome) ∧ crcFinBody s = .raise .sequenceFault s) ∨
      ∃ acc, s.crcAcc = some acc ∧ s.seed = none ∧
        crcFinBody s = .done { s with seed := some (~~~ acc), crcAcc := none } := by
  cases h : s.crcAcc <;> cases h' : s.seed <;> simp [crcFinBody, requireValue, requireNone, h, h']

theorem crcIdBody_cases (s : State) :
    (s.seed.isSome ∧ crcIdBody s = .raise .sequenceFault s) ∨
      (s.seed = none ∧ (s.cfg.idAsciiCheck && s.idBytes.any nonAscii) = true ∧
        crcIdBody s = .raise .idNotAscii s) ∨
      s.seed = none ∧ (s.cfg.idAsciiCheck && s.idBytes.any nonAscii) = false ∧
        crcIdBody s = .done { s with seed := some (checksum s.idBytes), crcAcc := none } := by
  cases h : s.seed with
  | some v => simp [crcIdBody, requireNone, h]
  | none =>
    cases hc : (s.cfg.idAsciiCheck && s.idBytes.any nonAscii) <;>
      simp [crcIdBody, requireNone, h, readId_eq, withAccess, hc]

theorem rngSeedBody_cases (s : State) :
    ((s.seed = none ∨ s.w.isSome) ∧ rngSeedBody s = .raise .sequenceFault s) ∨
      ∃ v, s.seed = some v ∧ s.w = none ∧ rngSeedBody s = .done { s with w := some (rngSeed v) } := by
  cases h : s.seed <;> cases h' : s.w <;> simp [rngSeedBody, requireValue, requireNone, h, h']

theorem rngNextBody_cases (s : State) :
    (s.w = none ∧ rngNextBody s = .raise .sequenceFault s) ∨
      ∃ w, s.w = some w ∧
        rngNextBody s = .done { s with rnd := some (rngOutput w), w := some (rngAdvance w) } := by
  cases h : s.w <;> simp [rngNextBody, requireValue, h]

theorem kdfKeyBody_cases (s : State) :
    ((s.w = none ∨ s.key.isSome) ∧ kdfKeyBody s = .raise .sequenceFault s) ∨
      (∃ w, s.w = some w ∧ s.key = none ∧ deriveSequence s.cfg.kmtRom w = none ∧
        kdfKeyBody s = .raise .kdfParseError s) ∨
      ∃ w k w', s.w = some w ∧ s.key = none ∧ deriveSequence s.cfg.kmtRom w = some (k, w') ∧
        kdfKeyBody s = .done { s with key := some k, w := some w' } := by
  cases h : s.w with
  | none => simp [kdfKeyBody, requireValue, h]
  | some w =>
    cases h' : s.key with
    | some k => simp [kdfKeyBody, requireValue, requireNone, h, h']
    | none =>
      cases hd : deriveSequence s.cfg.kmtRom w with
      | none => simp [kdfKeyBody, requireValue, requireNone, h, h', hd]
      | some r => exact .inr (.inr ⟨w, r.1, r.2, rfl, rfl, hd, by simp [kdfKeyBody, requireValue, requireNone, h, h', hd]⟩)

theorem kdfIvBody_cases (s : State) :
    ((s.w = none ∨ s.key = none ∨ s.iv.isSome) ∧ kdfIvBody s = .raise .sequenceFault s) ∨
      (∃ w, s.w = some w ∧ s.key.isSome ∧ s.iv = none ∧ deriveSequence s.cfg.kmtRom w = none ∧
        kdfIvBody s = .raise .kdfParseError s) ∨
      ∃ w v w', s.w = some w ∧ s.key.isSome ∧ s.iv = none ∧
        deriveSequence s.cfg.kmtRom w = some (v, w') ∧
        kdfIvBody s = .done { s with iv := some v, w := some w' } := by
  cases h : s.w with
  | none => simp [kdfIvBody, requireValue, h]
  | some w =>
    cases hk : s.key with
    | none => simp [kdfIvBody, requireValue, h, hk]
    | some k =>
      cases h' : s.iv with
      | some k => simp [kdfIvBody, requireValue, requireNone, h, hk, h']
      | none =>
        cases hd : deriveSequence s.cfg.kmtRom w with
        | none => simp [kdfIvBody, requireValue, requireNone, h, hk, h', hd]
        | some r => exact .inr (.inr ⟨w, r.1, r.2, rfl, rfl, rfl, hd, by simp [kdfIvBody, requireValue, requireNone, h, hk, h', hd]⟩)

theorem frmParseBody_cases (s : State) :
    (s.ctLen.isSome ∧ frmParseBody s = .raise .sequenceFault s) ∨
      (s.ctLen = none ∧ (s.launch.fileLen.toNat < 8 ∨
          le64 (s.fileBytes.drop (s.launch.fileLen.toNat - 8)) ≠ magic) ∧
        frmParseBody s = .raise .formatError s) ∨
      s.ctLen = none ∧ 8 ≤ s.launch.fileLen.toNat ∧
        le64 (s.fileBytes.drop (s.launch.fileLen.toNat - 8)) = magic ∧
        frmParseBody s = .done { s with ctLen := some (s.launch.fileLen - 8) } := by
  cases h : s.ctLen with
  | some n => simp [frmParseBody, requireNone, h]
  | none =>
    right
    by_cases h8 : s.launch.fileLen < 8
    · have h8' : s.launch.fileLen.toNat < 8 := by simpa [BitVec.lt_def] using h8
      refine .inl ⟨rfl, .inl h8', ?_⟩
      rw [frmParseBody, h, requireNone, if_pos h8]
    · have h8' : 8 ≤ s.launch.fileLen.toNat := by simpa [BitVec.lt_def] using h8
      have hbody : frmParseBody s =
          if le64 (s.fileBytes.drop (s.launch.fileLen.toNat - 8)) ≠ magic then .raise .formatError s
          else .done { s with ctLen := some (s.launch.fileLen - 8) } := by
        rw [frmParseBody, h, requireNone, if_neg h8, readTrailer_eq s h8']
        rfl
      by_cases hm : le64 (s.fileBytes.drop (s.launch.fileLen.toNat - 8)) = magic
      · exact .inr ⟨rfl, h8', hm, by rw [hbody, if_neg (not_not.2 hm)]⟩
      · exact .inl ⟨rfl, .inr hm, by rw [hbody, if_pos hm]⟩

/-- The plaintext of a decryption: shorter than the region, or empty with an empty region (spec/10_state.md R37). -/
theorem decrypt_length {cfg : Config} {region plain : List Byte} {k v : Block}
    (h : decrypt cfg region k v = some plain) :
    (region = [] ∧ plain = []) ∨ plain.length < region.length := by
  have hchain : ∀ (dec : Block → Block) (chain : Block) (cs : List Block),
      (chainDecrypt dec chain cs).length = 16 * cs.length := by
    intro dec chain cs
    induction cs generalizing chain with
    | nil => rfl
    | cons c cs ih => simp [chainDecrypt, ih]; omega
  unfold decrypt at h
  split at h
  · cases h
  · split at h
    · rename_i h0
      have h0 := List.eq_nil_of_length_eq_zero h0
      split at h
      · cases h
      · exact .inl ⟨h0, by injection h with h; exact h.symm⟩
    · rename_i hm h0
      right
      simp only [stripPadding] at h
      split at h
      · cases h
      · split at h
        · rename_i hp _
          injection h with h
          subst h
          simp only [List.length_take, hchain, regionBlocks, List.length_map, List.length_range] at *
          omega
        · cases h

/-- DEC.RUN's body once its region decrypts: the plaintext fits `PT`, so it is done. -/
theorem decRunBody_done {s : State} {k v : Block} {n : Word} {plain : List Byte} (hk : s.key = some k)
    (hv : s.iv = some v) (hn : s.ctLen = some n) (hle : n.toNat ≤ s.launch.fileLen.toNat)
    (hd : decrypt s.cfg (s.fileBytes.take n.toNat) k v = some plain) :
    ∃ pt, memWrite [] 0 plain = some pt ∧ decRunBody s = .done (s.completeDecryption plain pt) := by
  have hlen : plain.length ≤ 2 ^ 32 := by
    have h1 := decrypt_length hd
    have h2 : (s.fileBytes.take n.toNat).length ≤ n.toNat := by simp
    have h3 := n.isLt
    rcases h1 with ⟨_, rfl⟩ | h1
    · simp
    · omega
  obtain ⟨pt, hpt, -⟩ := memWrite_empty plain hlen
  refine ⟨pt, hpt, ?_⟩
  simp [decRunBody, requireValue, hk, hv, hn, readRegion_eq s n hle, withAccess, hd, hpt]

/-- Everything DEC.RUN's body can give (spec/45_cipher.md R200). -/
theorem decRunBody_cases (s : State) :
    ((s.key = none ∨ s.iv = none ∨ s.ctLen = none) ∧ decRunBody s = .raise .sequenceFault s) ∨
      ∃ k v n, s.key = some k ∧ s.iv = some v ∧ s.ctLen = some n ∧
        ((s.launch.fileLen.toNat < n.toNat ∧ decRunBody s = .stuck .outOfRange) ∨
          n.toNat ≤ s.launch.fileLen.toNat ∧
            ((decrypt s.cfg (s.fileBytes.take n.toNat) k v = none ∧ decRunBody s = .raise .cryptoError s) ∨
              ∃ plain pt, decrypt s.cfg (s.fileBytes.take n.toNat) k v = some plain ∧
                memWrite [] 0 plain = some pt ∧ decRunBody s = .done (s.completeDecryption plain pt))) := by
  cases hk : s.key with
  | none => simp [decRunBody, requireValue, hk]
  | some k =>
    cases hv : s.iv with
    | none => simp [decRunBody, requireValue, hk, hv]
    | some v =>
      cases hn : s.ctLen with
      | none => simp [decRunBody, requireValue, hk, hv, hn]
      | some n =>
        refine .inr ⟨k, v, n, rfl, rfl, rfl, ?_⟩
        by_cases hle : n.toNat ≤ s.launch.fileLen.toNat
        · refine .inr ⟨hle, ?_⟩
          cases hd : decrypt s.cfg (s.fileBytes.take n.toNat) k v with
          | none => simp [decRunBody, requireValue, hk, hv, hn, readRegion_eq s n hle, withAccess, hd]
          | some plain =>
            obtain ⟨pt, hpt, hb⟩ := decRunBody_done hk hv hn hle hd
            exact .inr ⟨plain, pt, rfl, hpt, hb⟩
        · refine .inl ⟨by omega, ?_⟩
          have : readRegion s n = none := memRead_outOfRange _ (by omega)
          simp [decRunBody, requireValue, hk, hv, hn, this, withAccess]

/-! ### Each instruction's meaning is its body, run -/

/-- The body of each command other than HALT. -/
def bodyOf : Instr → State → SubStep
  | .halt => fun s => .done s
  | .run => runBody
  | .crcInit => crcInitBody
  | .crcUpd b => crcUpdBody b
  | .crcFin => crcFinBody
  | .crcId => crcIdBody
  | .rngSeed => rngSeedBody
  | .rngNext => rngNextBody
  | .kdfKey => kdfKeyBody
  | .kdfIv => kdfIvBody
  | .frmParse => frmParseBody
  | .decRun => decRunBody

theorem exec_halt (s : State) : exec .halt s = .next { s with state := .halted } := rfl

theorem exec_eq_runCommand {i : Instr} (h : i ≠ .halt) (s : State) :
    exec i s = runCommand s (bodyOf i) := by
  cases i <;> first | rfl | exact absurd rfl h

end Sys2Proof.Machine
end

