-- ==== Sys2Proof/Laws/Encoding.lean ====
section
/-!
SUPPORT. The fields of a command word: splitting and joining undo each other (spec/30_encoding.md R90).
-/

namespace Sys2Proof

/-- Joining the fields of a word gives the word. -/
@[simp] theorem word_fieldsOf (w : CmdWord) : (fieldsOf w).word = w := by
  apply BitVec.eq_of_toNat_eq
  simp only [CmdFields.word, fieldsOf, BitVec.toNat_append, BitVec.extractLsb'_toNat]
  have := w.isLt
  rw [← Nat.shiftLeft_add_eq_or_of_lt (by omega), Nat.shiftLeft_eq, Nat.shiftRight_eq_div_pow]
  simp; omega

/-- Splitting a joined word gives the fields. -/
@[simp] theorem fieldsOf_word (f : CmdFields) : fieldsOf f.word = f := by
  obtain ⟨op, imm⟩ := f
  have h1 := op.isLt
  have h2 := imm.isLt
  simp only [fieldsOf, CmdFields.word, CmdFields.mk.injEq]
  constructor <;> apply BitVec.eq_of_toNat_eq <;>
    simp only [BitVec.toNat_append, BitVec.extractLsb'_toNat] <;>
    rw [← Nat.shiftLeft_add_eq_or_of_lt (by omega), Nat.shiftLeft_eq, Nat.shiftRight_eq_div_pow] <;> omega

end Sys2Proof
end

