-- ==== Sys2Proof/Laws/Kdf.lean ====
section
/-!
SUPPORT. The numbers the claims about the derivation speak of, and the model's own digits: the same values
(spec/43_kdf.md R161, R162).
-/

namespace Sys2Proof.Machine

/-- The character of a draw is the model's table lookup. -/
theorem drawnChar_eq_romAt (rom : Vector Byte 256) (w : Words) (j : Nat) :
    drawnChar rom w j = romAt rom (drawIndex (rngOutput (rngAdvanceBy j w))) := by
  have h : (drawIndex (rngOutput (rngAdvanceBy j w))).toNat = (rngOutput (rngAdvanceBy j w)).toNat / 2 ^ 24 := by
    simp only [drawIndex, BitVec.toNat_setWidth, BitVec.toNat_ushiftRight, Nat.shiftRight_eq_div_pow]
    have := (rngOutput (rngAdvanceBy j w)).isLt
    omega
  rw [drawnChar, romAt, h]

/-- The claims' digit value is the model's. -/
theorem hexDigitOf_eq_hexval (ch : Byte) : hexDigitOf ch = (hexval ch).map BitVec.toNat := by
  revert ch; decide +kernel

/-- A digit's value is below 16. -/
theorem hexDigitOf_lt {ch : Byte} {v : Nat} (h : hexDigitOf ch = some v) : v < 16 := by
  simp only [hexDigitOf] at h
  split at h
  · injection h; omega
  · split at h
    · injection h; omega
    · cases h

end Sys2Proof.Machine
end

