-- ==== Sys2Proof/Laws/PerInstr.lean ====
section
/-!
SUPPORT. Statements made per instruction.

`EncodeFits`: the word of an instruction has the pattern of its row of the opcode table (spec/30_encoding.md R93), and
its two fields make a command (R90, R94).
-/

namespace Sys2Proof.Laws.EncodeFits

/-- The encoded word fits the instruction's row, and its fields are well-formed. -/
def Statement (i : Instr) : Prop :=
  fitsRow i (encode i) = true ∧ (fieldsOf (encode i)).wf = true

theorem halt : Statement .halt := by unfold Statement; decide
theorem run : Statement .run := by unfold Statement; decide
theorem crcInit : Statement .crcInit := by unfold Statement; decide
theorem crcUpd (imm8 : Byte) : Statement (.crcUpd imm8) := by
  refine ⟨?_, by simp [encode, CmdFields.wf, opcodeOf, formatIOpcode]⟩
  have h := imm8.isLt
  simp only [fitsRow, rowOf, beq_iff_eq]
  apply BitVec.eq_of_toNat_eq
  simp only [encode, CmdFields.word, opcodeOf, immOf, BitVec.toNat_and, BitVec.toNat_append]
  rw [← Nat.shiftLeft_add_eq_or_of_lt (by omega)]
  revert h
  generalize imm8.toNat = n
  revert n
  decide +kernel
theorem crcFin : Statement .crcFin := by unfold Statement; decide
theorem crcId : Statement .crcId := by unfold Statement; decide
theorem rngSeed : Statement .rngSeed := by unfold Statement; decide
theorem rngNext : Statement .rngNext := by unfold Statement; decide
theorem kdfKey : Statement .kdfKey := by unfold Statement; decide
theorem kdfIv : Statement .kdfIv := by unfold Statement; decide
theorem frmParse : Statement .frmParse := by unfold Statement; decide
theorem decRun : Statement .decRun := by unfold Statement; decide

end Sys2Proof.Laws.EncodeFits
end

