-- ==== Sys2Proof/Laws/Step.lean ====
section
/-!
SUPPORT. What a command and a step can do, said once: what no body touches, how a body that raises leaves the state,
and the cases of `fetch` and of `step`.
-/

namespace Sys2Proof.Machine

/-- The registers no body touches: the control registers, the launch configuration and the parameters. -/
def sameControl (s t : State) : Prop :=
  t.state = s.state ∧ t.cp = s.cp ∧ t.cause = s.cause ∧ t.faultCp = s.faultCp ∧ t.launch = s.launch ∧ t.cfg = s.cfg

theorem sameControl.rfl' (s : State) : sameControl s s := ⟨rfl, rfl, rfl, rfl, rfl, rfl⟩

theorem sameControl.trans {s t u : State} (h : sameControl s t) (h' : sameControl t u) : sameControl s u := by
  obtain ⟨a, b, c, d, e, f⟩ := h
  obtain ⟨a', b', c', d', e', f'⟩ := h'
  exact ⟨a'.trans a, b'.trans b, c'.trans c, d'.trans d, e'.trans e, f'.trans f⟩

/-- A body that is done has touched no control register. -/
def KeepsControl (body : State → SubStep) : Prop :=
  ∀ s t, body s = .done t → sameControl s t

/-- A body that raises a fault leaves the state it began in, and the cause is a real one. -/
def RaisesPrecisely (body : State → SubStep) : Prop :=
  ∀ s c t, body s = .raise c t → t = s ∧ c ≠ .none

/-- A body that cannot raise CryptoError. -/
def NeverCrypto (body : State → SubStep) : Prop :=
  ∀ s t, body s ≠ .raise .cryptoError t

theorem crcInitBody_keeps : KeepsControl crcInitBody := by
  intro s t h; injection h with h; subst h; exact sameControl.rfl' s

theorem crcUpdBody_keeps (b : Byte) : KeepsControl (crcUpdBody b) := by
  intro s t h
  rcases crcUpdBody_cases b s with ⟨-, e⟩ | ⟨_, -, e⟩ <;> rw [e] at h <;> cases h
  exact sameControl.rfl' s

theorem crcFinBody_keeps : KeepsControl crcFinBody := by
  intro s t h
  rcases crcFinBody_cases s with ⟨-, e⟩ | ⟨_, -, -, e⟩ <;> rw [e] at h <;> cases h
  exact sameControl.rfl' s

theorem crcIdBody_keeps : KeepsControl crcIdBody := by
  intro s t h
  rcases crcIdBody_cases s with ⟨-, e⟩ | ⟨-, -, e⟩ | ⟨-, -, e⟩ <;> rw [e] at h <;> cases h
  exact sameControl.rfl' s

theorem rngSeedBody_keeps : KeepsControl rngSeedBody := by
  intro s t h
  rcases rngSeedBody_cases s with ⟨-, e⟩ | ⟨_, -, -, e⟩ <;> rw [e] at h <;> cases h
  exact sameControl.rfl' s

theorem rngNextBody_keeps : KeepsControl rngNextBody := by
  intro s t h
  rcases rngNextBody_cases s with ⟨-, e⟩ | ⟨_, -, e⟩ <;> rw [e] at h <;> cases h
  exact sameControl.rfl' s

theorem kdfKeyBody_keeps : KeepsControl kdfKeyBody := by
  intro s t h
  rcases kdfKeyBody_cases s with ⟨-, e⟩ | ⟨_, -, -, -, e⟩ | ⟨_, _, _, -, -, -, e⟩ <;> rw [e] at h <;> cases h
  exact sameControl.rfl' s

theorem kdfIvBody_keeps : KeepsControl kdfIvBody := by
  intro s t h
  rcases kdfIvBody_cases s with ⟨-, e⟩ | ⟨_, -, -, -, -, e⟩ | ⟨_, _, _, -, -, -, -, e⟩ <;> rw [e] at h <;> cases h
  exact sameControl.rfl' s

theorem frmParseBody_keeps : KeepsControl frmParseBody := by
  intro s t h
  rcases frmParseBody_cases s with ⟨-, e⟩ | ⟨-, -, e⟩ | ⟨-, -, -, e⟩ <;> rw [e] at h <;> cases h
  exact sameControl.rfl' s

theorem decRunBody_keeps : KeepsControl decRunBody := by
  intro s t h
  rcases decRunBody_cases s with
    ⟨-, e⟩ | ⟨_, _, _, -, -, -, ⟨-, e⟩ | ⟨-, ⟨-, e⟩ | ⟨_, _, -, -, e⟩⟩⟩ <;> rw [e] at h <;> cases h
  exact sameControl.rfl' s

/-- Two bodies in sequence keep the control registers if each does. -/
theorem andThen_keeps {f g : State → SubStep} (hf : KeepsControl f) (hg : KeepsControl g) :
    KeepsControl fun s => (f s).andThen g := by
  intro s t h
  change (f s).andThen g = .done t at h
  rcases SubStep.andThen_cases (f s) g with ⟨u, hu, e⟩ | ⟨_, _, -, e⟩ | ⟨_, -, e⟩ <;> rw [e] at h
  · exact (hf s u hu).trans (hg u t h)
  · cases h
  · cases h

/-- No body touches a control register. -/
theorem bodyOf_keeps (i : Instr) : KeepsControl (bodyOf i) := by
  cases i with
  | halt => intro s t h; injection h with h; subst h; exact sameControl.rfl' s
  | run =>
    exact andThen_keeps (andThen_keeps (andThen_keeps (andThen_keeps (andThen_keeps crcIdBody_keeps
      rngSeedBody_keeps) kdfKeyBody_keeps) kdfIvBody_keeps) frmParseBody_keeps) decRunBody_keeps
  | crcInit => exact crcInitBody_keeps
  | crcUpd b => exact crcUpdBody_keeps b
  | crcFin => exact crcFinBody_keeps
  | crcId => exact crcIdBody_keeps
  | rngSeed => exact rngSeedBody_keeps
  | rngNext => exact rngNextBody_keeps
  | kdfKey => exact kdfKeyBody_keeps
  | kdfIv => exact kdfIvBody_keeps
  | frmParse => exact frmParseBody_keeps
  | decRun => exact decRunBody_keeps

/-- Every body but RUN's raises its faults precisely. -/
theorem bodyOf_raise {i : Instr} (hi : i ≠ .run) : RaisesPrecisely (bodyOf i) := by
  intro s c t h
  cases i with
  | halt => cases h
  | run => exact absurd rfl hi
  | crcInit => cases h
  | crcUpd b =>
    rcases crcUpdBody_cases b s with ⟨-, e⟩ | ⟨_, -, e⟩ <;> rw [bodyOf, e] at h <;> cases h
    simp
  | crcFin =>
    rcases crcFinBody_cases s with ⟨-, e⟩ | ⟨_, -, -, e⟩ <;> rw [bodyOf, e] at h <;> cases h
    simp
  | crcId =>
    rcases crcIdBody_cases s with ⟨-, e⟩ | ⟨-, -, e⟩ | ⟨-, -, e⟩ <;> rw [bodyOf, e] at h <;> cases h <;> simp
  | rngSeed =>
    rcases rngSeedBody_cases s with ⟨-, e⟩ | ⟨_, -, -, e⟩ <;> rw [bodyOf, e] at h <;> cases h
    simp
  | rngNext =>
    rcases rngNextBody_cases s with ⟨-, e⟩ | ⟨_, -, e⟩ <;> rw [bodyOf, e] at h <;> cases h
    simp
  | kdfKey =>
    rcases kdfKeyBody_cases s with ⟨-, e⟩ | ⟨_, -, -, -, e⟩ | ⟨_, _, _, -, -, -, e⟩ <;>
      rw [bodyOf, e] at h <;> cases h <;> simp
  | kdfIv =>
    rcases kdfIvBody_cases s with ⟨-, e⟩ | ⟨_, -, -, -, -, e⟩ | ⟨_, _, _, -, -, -, -, e⟩ <;>
      rw [bodyOf, e] at h <;> cases h <;> simp
  | frmParse =>
    rcases frmParseBody_cases s with ⟨-, e⟩ | ⟨-, -, e⟩ | ⟨-, -, -, e⟩ <;>
      rw [bodyOf, e] at h <;> cases h <;> simp
  | decRun =>
    rcases decRunBody_cases s with
      ⟨-, e⟩ | ⟨_, _, _, -, -, -, ⟨-, e⟩ | ⟨-, ⟨-, e⟩ | ⟨_, _, -, -, e⟩⟩⟩ <;>
      rw [bodyOf, e] at h <;> cases h <;> simp

/-- A body that raises a real cause and has touched no control register by then. -/
def RaisesControlled (body : State → SubStep) : Prop :=
  ∀ s c t, body s = .raise c t → sameControl s t ∧ c ≠ .none

theorem RaisesPrecisely.controlled {body : State → SubStep} (h : RaisesPrecisely body) : RaisesControlled body := by
  intro s c t hr
  obtain ⟨rfl, hc⟩ := h s c t hr
  exact ⟨sameControl.rfl' t, hc⟩

/-- Two bodies in sequence raise their faults with the control registers untouched if each does. -/
theorem andThen_raises {f g : State → SubStep} (hf : RaisesControlled f) (hk : KeepsControl f)
    (hg : RaisesControlled g) : RaisesControlled fun s => (f s).andThen g := by
  intro s c t h
  change (f s).andThen g = .raise c t at h
  rcases SubStep.andThen_cases (f s) g with ⟨u, hu, e⟩ | ⟨c', u, hu, e⟩ | ⟨_, -, e⟩ <;> rw [e] at h
  · obtain ⟨h1, h2⟩ := hg u c t h
    exact ⟨(hk s u hu).trans h1, h2⟩
  · injection h with h1 h2
    subst h1 h2
    exact hf s c' u hu
  · cases h

/-- Every body raises its faults with the control registers untouched, RUN's among them. -/
theorem bodyOf_raise_controlled (i : Instr) : RaisesControlled (bodyOf i) := by
  by_cases hi : i = .run
  · subst hi
    have r := fun (j : Instr) (hj : j ≠ .run) => (bodyOf_raise hj).controlled
    have k1 := andThen_keeps crcIdBody_keeps rngSeedBody_keeps
    have k2 := andThen_keeps k1 kdfKeyBody_keeps
    have k3 := andThen_keeps k2 kdfIvBody_keeps
    have k4 := andThen_keeps k3 frmParseBody_keeps
    exact andThen_raises (andThen_raises (andThen_raises (andThen_raises (andThen_raises
      (r .crcId (by decide)) crcIdBody_keeps (r .rngSeed (by decide))) k1 (r .kdfKey (by decide))) k2
      (r .kdfIv (by decide))) k3 (r .frmParse (by decide))) k4 (r .decRun (by decide))
  · exact (bodyOf_raise hi).controlled

/-- Only the cipher stage raises CryptoError. -/
theorem bodyOf_neverCrypto {i : Instr} (hi : i ≠ .run) (hi' : i ≠ .decRun) : NeverCrypto (bodyOf i) := by
  intro s t h
  cases i with
  | halt => cases h
  | run => exact absurd rfl hi
  | decRun => exact absurd rfl hi'
  | crcInit => cases h
  | crcUpd b => rcases crcUpdBody_cases b s with ⟨-, e⟩ | ⟨_, -, e⟩ <;> rw [bodyOf, e] at h <;> cases h
  | crcFin => rcases crcFinBody_cases s with ⟨-, e⟩ | ⟨_, -, -, e⟩ <;> rw [bodyOf, e] at h <;> cases h
  | crcId =>
    rcases crcIdBody_cases s with ⟨-, e⟩ | ⟨-, -, e⟩ | ⟨-, -, e⟩ <;> rw [bodyOf, e] at h <;> cases h
  | rngSeed => rcases rngSeedBody_cases s with ⟨-, e⟩ | ⟨_, -, -, e⟩ <;> rw [bodyOf, e] at h <;> cases h
  | rngNext => rcases rngNextBody_cases s with ⟨-, e⟩ | ⟨_, -, e⟩ <;> rw [bodyOf, e] at h <;> cases h
  | kdfKey =>
    rcases kdfKeyBody_cases s with ⟨-, e⟩ | ⟨_, -, -, -, e⟩ | ⟨_, _, _, -, -, -, e⟩ <;>
      rw [bodyOf, e] at h <;> cases h
  | kdfIv =>
    rcases kdfIvBody_cases s with ⟨-, e⟩ | ⟨_, -, -, -, -, e⟩ | ⟨_, _, _, -, -, -, -, e⟩ <;>
      rw [bodyOf, e] at h <;> cases h
  | frmParse =>
    rcases frmParseBody_cases s with ⟨-, e⟩ | ⟨-, -, e⟩ | ⟨-, -, -, e⟩ <;> rw [bodyOf, e] at h <;> cases h

/-- Everything a command can do when it answers a next state: HALT; or the single-shot fault; or its body is done and
`CP` advances; or its body raised a fault. -/
theorem exec_next {i : Instr} {s t : State} (h : exec i s = .next t) :
    (i = .halt ∧ t = { s with state := .halted }) ∨
      i ≠ .halt ∧
        ((s.done = true ∧ t = s.takeFault .sequenceFault) ∨
          s.done = false ∧ ((∃ u, bodyOf i s = .done u ∧ t = u.advance) ∨
            ∃ c u, bodyOf i s = .raise c u ∧ t = u.takeFault c)) := by
  by_cases hi : i = .halt
  · subst hi
    rw [exec_halt] at h
    injection h with h
    exact .inl ⟨rfl, h.symm⟩
  · rw [exec_eq_runCommand hi] at h
    exact .inr ⟨hi, runCommand_next h⟩

/-! ### Fault entry, as the claims write it -/

theorem takeFault_eq_faulting (s : State) {c : Cause} (h : c ≠ .cryptoError) : s.takeFault c = s.faulting c := by
  rw [State.takeFault_other s h]; rfl

theorem takeFault_eq_faulting_cryptoError (s : State) :
    s.takeFault .cryptoError = { s.faulting .cryptoError with pt := [], ptEpoch := s.ptEpoch + 1 } := rfl

/-! ### Fetch and step -/

/-- The word at an index inside the command stream is the one fetched. -/
theorem cmdWords_getElem? {s : State} {a : Nat} {w : CmdWord} (h : s.cmdWords[a]? = some w) :
    a < s.launch.cmdLen.toNat ∧ readCmd s a = some w := by
  rw [List.getElem?_eq_some_iff] at h
  obtain ⟨ha, hw⟩ := h
  have ha' : a < s.launch.cmdLen.toNat := by simpa [State.cmdWords, sequenceOf] using ha
  refine ⟨ha', ?_⟩
  rw [readCmd_eq s a ha', ← hw]
  simp [State.cmdWords, sequenceOf]

theorem cmdWords_of_lt {s : State} {a : Nat} (h : a < s.launch.cmdLen.toNat) :
    ∃ w, s.cmdWords[a]? = some w :=
  ⟨_, List.getElem?_eq_getElem (by simpa [State.cmdWords, sequenceOf] using h)⟩

/-- A fetch inside the stream decodes the word there. -/
theorem fetch_word {s : State} {w : CmdWord} (h : s.cmdWords[s.cp.toNat]? = some w) :
    fetch s = decodeFetched w := by
  obtain ⟨h1, h2⟩ := cmdWords_getElem? h
  rw [fetch, if_neg (by simpa [BitVec.le_def] using h1), h2]

/-- A fetch past the end raises FetchPastEnd. -/
theorem fetch_pastEnd {s : State} (h : s.launch.cmdLen.toNat ≤ s.cp.toNat) : fetch s = .raise .fetchPastEnd :=
  if_pos (by simpa [BitVec.le_def] using h)

/-- Everything a fetch can give: FetchPastEnd past the end, else what the word at `CP` decodes to. -/
theorem fetch_cases (s : State) :
    (s.launch.cmdLen.toNat ≤ s.cp.toNat ∧ fetch s = .raise .fetchPastEnd) ∨
      ∃ w, s.cmdWords[s.cp.toNat]? = some w ∧
        ((∃ i, decode w = .command i ∧ fetch s = .command i) ∨
          ∃ why, decode w = .illegal why ∧ fetch s = .raise .illegalCommand) := by
  rcases Nat.lt_or_ge s.cp.toNat s.launch.cmdLen.toNat with h | h
  · obtain ⟨w, hw⟩ := cmdWords_of_lt h
    refine .inr ⟨w, hw, ?_⟩
    rw [fetch_word hw, decodeFetched]
    cases hd : decode w with
    | command i => exact .inl ⟨i, rfl, rfl⟩
    | illegal why => exact .inr ⟨why, rfl, rfl⟩
  · exact .inl ⟨h, fetch_pastEnd h⟩

theorem step_stopped {s : State} (h : s.state ≠ .running) : step s = .next s := by
  unfold step; cases hs : s.state <;> first | rfl | exact absurd hs h

theorem step_running {s : State} (h : s.state = .running) :
    step s = match fetch s with
      | .command i => exec i s
      | .raise c => .next (s.takeFault c)
      | .stuck f => .fault f := by
  obtain ⟨⟩ := s
  cases h
  rfl

/-- A run of `k + 1` steps of any machine is a run of `k` from where the first step leads. -/
theorem run_succ_of_step {M : Host.Core} (k : Nat) {s t : M.State} (h : M.step s = .next t) :
    M.run (k + 1) s = M.run k t := by
  rw [Host.Core.run, h]

/-- A run of `k + 1` steps is a run of `k` from where the first step leads. -/
theorem core_run_succ (k : Nat) {s t : State} (h : step s = .next t) :
    Host.Core.run Sys2Proof.core (k + 1) s = Host.Core.run Sys2Proof.core k t :=
  run_succ_of_step (M := Sys2Proof.core) k h

/-- Everything a step can do when it answers a next state. -/
theorem step_next {s t : State} (h : step s = .next t) :
    (s.state ≠ .running ∧ t = s) ∨
      s.state = .running ∧
        ((s.launch.cmdLen.toNat ≤ s.cp.toNat ∧ t = s.takeFault .fetchPastEnd) ∨
          ∃ w, s.cmdWords[s.cp.toNat]? = some w ∧
            ((∃ why, decode w = .illegal why ∧ t = s.takeFault .illegalCommand) ∨
              ∃ i, decode w = .command i ∧ exec i s = .next t)) := by
  by_cases hr : s.state = .running
  · refine .inr ⟨hr, ?_⟩
    rw [step_running hr] at h
    rcases fetch_cases s with ⟨hp, e⟩ | ⟨w, hw, ⟨i, hi, e⟩ | ⟨why, hi, e⟩⟩ <;> rw [e] at h
    · injection h with h; exact .inl ⟨hp, h.symm⟩
    · exact .inr ⟨w, hw, .inr ⟨i, hi, h⟩⟩
    · injection h with h; exact .inr ⟨w, hw, .inl ⟨why, hi, h.symm⟩⟩
  · rw [step_stopped hr] at h
    injection h with h
    exact .inl ⟨hr, h.symm⟩

end Sys2Proof.Machine
end

