-- ==== Sys2Proof/Tests/Slice0.lean ====
section
/-!
SUPPORT. Tests of the model on the vectors of spec/95_test_vectors.md, each named in its docstring, and for every
obligation with hypotheses a witness that meets them together (`witness_<the obligation's name>…`).
-/

namespace Sys2Proof.Tests

open Sys2Proof Sys2Proof.Machine

/-! ### Small states -/

/-- The test image `T0` (spec/95_test_vectors.md section 1): `T0[i]` is the digit of `(7 i + 3) mod 16`. -/
def t0Image : Vector Byte 256 :=
  Config.romImage fun i => Config.hexDigit (BitVec.ofNat 4 (7 * i + 3))

/-- `T0` with one entry replaced. -/
def t0Except (k : Nat) (b : Byte) : Vector Byte 256 :=
  Config.romImage fun i => if i = k then b else Config.hexDigit (BitVec.ofNat 4 (7 * i + 3))

/-- The launch of the vectors (spec/70_reset_and_hazards.md R302), with `T0` as the table. -/
def launched (words : List CmdWord) (id file : List Byte) : State :=
  (State.resetWith .unloaded { Config.standard with kmtRom := t0Image }).launchWith words id file

/-- Right after a launch with nothing in the three spaces. -/
def start : State := launched [] [] []

/-- `Mush/ActorDb.release.byml` (V-CRC-6). -/
def mushId : List Byte :=
  [0x4D, 0x75, 0x73, 0x68, 0x2F, 0x41, 0x63, 0x74, 0x6F, 0x72, 0x44, 0x62, 0x2E, 0x72, 0x65, 0x6C, 0x65, 0x61, 0x73,
   0x65, 0x2E, 0x62, 0x79, 0x6D, 0x6C]

/-- The file of V-E2E-1: V-DEC-1's region and the marker. -/
def e2eFile : List Byte :=
  [0x3A, 0xE8, 0xF3, 0xFB, 0x5A, 0x4D, 0x68, 0x39, 0x13, 0x87, 0xEF, 0xDE, 0x27, 0x38, 0x42, 0xD6,
   0x2A, 0x95, 0xFC, 0xC2, 0xFC, 0x44, 0x43, 0xE4, 0xD2, 0x7E, 0x02, 0xB2, 0x30, 0x91, 0x94, 0xD7] ++ magicBytes

/-- The plaintext of V-E2E-1, `NisaCore test vector 01!`. -/
def e2ePlain : List Byte :=
  [0x4E, 0x69, 0x73, 0x61, 0x43, 0x6F, 0x72, 0x65, 0x20, 0x74, 0x65, 0x73, 0x74, 0x20, 0x76, 0x65, 0x63, 0x74, 0x6F,
   0x72, 0x20, 0x30, 0x31, 0x21]

/-- The words of V-RNG-4, which RUN reaches for that identifier. -/
def mushWords : Words := ⟨0xB63C0205, 0x04F38BC5, 0x384591BC, 0xBA941B30⟩

/-- `W` after V-KDF-1. -/
def wordsAfterKey : Words := ⟨0xBEC6A77A, 0x8C184DA8, 0xEE8F076D, 0x07DFE28C⟩

/-- `W` after V-KDF-2. -/
def wordsAfterIv : Words := ⟨0xA88DAA8D, 0x308B4DEE, 0x89213114, 0xE84D9D5F⟩

/-- `K0` (V-KDF-1). -/
def k0 : Block :=
  #v[0x7F, 0x39, 0xD9, 0x45, 0xE4, 0x53, 0x21, 0xCF, 0x51, 0xDC, 0x32, 0x0D, 0x6F, 0x6C, 0x57, 0x54]

/-- `V0` (V-KDF-2). -/
def v0 : Block :=
  #v[0x71, 0xF7, 0x02, 0x00, 0xDC, 0xA4, 0x19, 0x9C, 0x4F, 0x6F, 0x5F, 0xB8, 0x77, 0x10, 0xB3, 0x2B]

/-- The region of V-DEC-2: one block that is all padding. -/
def paddingRegion : List Byte :=
  [0x6C, 0xB4, 0xD7, 0x3E, 0xA8, 0x81, 0x59, 0x47, 0xD2, 0xC5, 0x11, 0x9D, 0xC0, 0x4B, 0x9A, 0xCD]

/-- Before the DEC.RUN of a vector of section 2.5, with the given region. -/
def beforeDecRun (region : List Byte) : State :=
  { launched [] [] (region ++ magicBytes) with
    key := some k0, iv := some v0, ctLen := some (BitVec.ofNat 32 region.length) }

/-- Before a DEC.RUN of no blocks under `EMPTY_CT_RESULT` = `empty`, which completes with no plaintext byte (V-DEC-4). -/
def beforeEmpty : State :=
  { beforeDecRun [] with cfg := { start.cfg with emptyCtResult := .empty } }

/-- A launch whose RUN completes with no plaintext byte. -/
def launchedEmpty : State :=
  { launched [] mushId magicBytes with cfg := { start.cfg with emptyCtResult := .empty } }

/-- The next state of a command, if there is one. -/
def after (i : Instr) (s : State) : Option State :=
  match exec i s with
  | .next t => some t
  | .fault _ | .refused _ => none

/-- The next state of a step, if there is one. -/
def afterStep (s : State) : Option State :=
  match step s with
  | .next t => some t
  | .fault _ | .refused _ => none

/-- What fault entry writes. -/
def faultView (t : State) : RunState × Cause × Option (BitVec 16) := (t.state, t.cause, t.faultCp)

/-! ### Well-formedness: an ill-formed term for each check -/

/-- R94: an opcode that is none of the twelve. -/
theorem test_fields_unknown_opcode : CmdFields.wf ⟨0x14, 0x00⟩ = false := by decide
/-- R94: a format-N command with a low byte. -/
theorem test_fields_stray_immediate : CmdFields.wf ⟨0x10, 0x01⟩ = false := by decide
/-- R91: format I takes every byte. -/
theorem test_fields_immediate : CmdFields.wf ⟨0x11, 0xFF⟩ = true := by decide
/-- R97: no double quote in the text of `CRC.STR`. -/
theorem test_asm_text_quote : AsmLine.wf (.crcStr [0x61, 0x22]) = false := by decide
/-- R97: printable ASCII only. -/
theorem test_asm_text_unprintable : AsmLine.wf (.crcStr [0x7F]) = false := by decide
/-- R63: `CMD_LEN` is at most 65535. -/
theorem test_stream_too_long : cmdStreamWf Config.standard (List.replicate 65536 0x0100) = false := by
  rw [cmdStreamWf, List.length_replicate]; rfl
/-- R8: a command word has `CMD_WIDTH` bits. -/
theorem test_word_too_wide : cmdStreamWf { Config.standard with cmdWidth := 12 } [0x1000] = false := by decide
/-- R8: a configuration wider than the registers' types. -/
theorem test_widths_too_wide :
    Config.widthsFit { Config.standard with lenWidth := 33 } = false ∧
      Config.widthsFit { Config.standard with cpWidth := 17 } = false ∧
      Config.widthsFit { Config.standard with cmdWidth := 17 } = false ∧ Config.standard.widthsFit = true := by decide
/-- R62: a length has 32 bits. -/
theorem test_file_too_long : inputBytesWf Config.standard (List.replicate (2 ^ 32) 0) = false := by
  simp only [inputBytesWf, List.length_replicate]; decide

/-! ### Decoding: words written out from R93, and illegal words (section 2.7) -/

theorem test_decode_control : decode 0x0100 = .command .halt ∧ decode 0x0200 = .command .run := by decide
theorem test_decode_crc : decode 0x1000 = .command .crcInit ∧ decode 0x1100 = .command (.crcUpd 0) ∧
    decode 0x1161 = .command (.crcUpd 0x61) ∧ decode 0x11FF = .command (.crcUpd 0xFF) ∧
    decode 0x1200 = .command .crcFin ∧ decode 0x1300 = .command .crcId := by decide
theorem test_decode_rng : decode 0x2000 = .command .rngSeed ∧ decode 0x2100 = .command .rngNext := by decide
theorem test_decode_kdf : decode 0x3000 = .command .kdfKey ∧ decode 0x3100 = .command .kdfIv := by decide
theorem test_decode_frm_dec : decode 0x4000 = .command .frmParse ∧ decode 0x5000 = .command .decRun := by decide
theorem test_decode_illegal :
    ([0x0000, 0xFFFF, 0x0101, 0x02FF, 0x1001, 0x1201, 0x1400, 0x0300, 0x2200, 0x3200, 0x4100, 0x5100, 0x6000, 0x0001,
      0x8000] : List CmdWord).all (fun w => !(formatNOpcodes.contains (fieldsOf w).opcode && (fieldsOf w).imm8 == 0) &&
        (match decode w with | .illegal _ => true | .command _ => false)) = true := by decide
/-- The host's numbering of the table's bits is the word's own (spec/30_encoding.md R95). -/
theorem test_decode_table_word : decodeTableWord 16 0x1161 = some (.crcUpd 0x61) := by decide

/-! ### CRC -/

/-- R122. -/
theorem test_crc_init : (after .crcInit start).map (fun t => (t.crcAcc, t.cp)) = some (some 0xFFFFFFFF, 1) := by
  decide
/-- The second row of V-CRC-4's trace. -/
theorem test_crc_upd : (after (.crcUpd 0x62) { start with crcAcc := some 0x174841BC }).map State.crcAcc =
    some (some 0x617CB792) := by decide
/-- V-CRC-10. -/
theorem test_crc_upd_first : (after (.crcUpd 0x61) start).map faultView =
    some (.faulted, .sequenceFault, some 0) := by decide
/-- V-CRC-4's CRC.FIN. -/
theorem test_crc_fin : (after .crcFin { start with crcAcc := some 0xCADBBE3D }).map (fun t => (t.seed, t.crcAcc)) =
    some (some 0x352441C2, none) := by decide
/-- V-CRC-12: the second CRC.FIN. -/
theorem test_crc_fin_twice :
    (after .crcFin { start with crcAcc := some 0xFFFFFFFF, seed := some 0, cp := 3 }).map
      (fun t => (faultView t, t.seed, t.crcValid)) =
      some ((.faulted, .sequenceFault, some 3), some 0, true) := by decide
/-- V-CRC-6. -/
theorem test_crc_id : (after .crcId (launched [] mushId [])).map State.seed = some (some 0x616EDBB5) := by
  decide +kernel
/-- V-CRC-14. -/
theorem test_crc_id_nonascii : (after .crcId (launched [] [0x80] [])).map (fun t => (faultView t, t.seed)) =
    some ((.faulted, .idNotAscii, some 0), none) := by decide

/-! ### RNG -/

/-- V-RNG-2. -/
theorem test_rng_seed : (after .rngSeed { start with seed := some 1 }).map State.w =
    some (some ⟨0x6C078966, 0xDD5254A5, 0xB9523B81, 0x03DF95B3⟩) := by decide
/-- P9. -/
theorem test_rng_seed_without_seed : (after .rngSeed start).map State.status = some 0x00000063 := by
  decide
/-- V-RNG-4, the first draw. -/
theorem test_rng_next : (after .rngNext { start with w := some mushWords }).map (fun t => (t.rnd, t.w)) =
    some (some 0xECEE0A4D, some ⟨0x04F38BC5, 0x384591BC, 0xBA941B30, 0xECEE0A4D⟩) := by decide
/-- V-RNG-9b. -/
theorem test_rng_next_all_ones :
    (after .rngNext { start with w := some ⟨0xFFFFFFFF, 0x11111111, 0x22222222, 0xFFFFFFFF⟩ }).map State.rnd =
      some (some 0xFFFFE7F8) := by decide

/-! ### KDF -/

/-- V-KDF-1. -/
theorem test_kdf_key : (after .kdfKey { start with w := some mushWords }).map (fun t => (t.key, t.w)) =
    some (some k0, some wordsAfterKey) := by decide
/-- V-KDF-5: entry 0xEC of `T1` is no hex digit. -/
theorem test_kdf_key_bad_entry :
    (after .kdfKey { start with
        w := some mushWords, cp := 2, cfg := { start.cfg with kmtRom := t0Except 0xEC 0x41 } }).map
      (fun t => (faultView t, t.key, t.w)) =
      some ((.faulted, .kdfParseError, some 2), none, some mushWords) := by decide
/-- V-KDF-2. -/
theorem test_kdf_iv : (after .kdfIv { start with w := some wordsAfterKey, key := some k0 }).map
    (fun t => (t.iv, t.w)) = some (some v0, some wordsAfterIv) := by decide
/-- V-KDF-8. -/
theorem test_kdf_iv_before_key : (after .kdfIv { start with w := some mushWords, cp := 2 }).map faultView =
    some (.faulted, .sequenceFault, some 2) := by decide

/-! ### FRM -/

/-- V-FRM-7: the parser does not look at the block size. -/
theorem test_frm_parse : (after .frmParse (launched [] [] ([1, 2, 3, 4, 5] ++ magicBytes))).map State.ctLen =
    some (some 5) := by decide
/-- V-FRM-6: the marker's bytes reversed. -/
theorem test_frm_parse_reversed :
    (after .frmParse (launched [] [] [0x74, 0x73, 0x79, 0x73, 0x61, 0x73, 0x69, 0x6E])).map
      (fun t => (faultView t, t.ctLen)) = some ((.faulted, .formatError, some 0), none) := by decide

/-! ### Control -/

/-- P14: both the identifier and the file are bad. -/
theorem test_run_first_fault : (afterStep (launched [0x0200] [0x4D, 0x75, 0x73, 0x68, 0x2F, 0xE9] [1])).map
    State.status = some 0x00000043 := by decide
/-- P13. -/
theorem test_halt : (afterStep (launched [0x0100] [] [])).map (fun t => (t.status, t.cp)) = some (2, 0) := by
  decide
/-- P13 with no command at all. -/
theorem test_fetch_past_end : (afterStep start).map (fun t => (t.status, t.faultCp)) =
    some (0x00000073, some 0) := by decide
/-- P10, the second step. -/
theorem test_illegal_command :
    (afterStep { launched [0x1000, 0x1001, 0x0100] [] [] with cp := 1, crcAcc := some 0xFFFFFFFF }).map
      (fun t => (t.status, t.faultCp)) = some (0x00000153, some 1) := by decide
/-- P2's text and encoding. -/
theorem test_assemble : assemble "CRC.STR \"abc\" ; text\nRNG.SEED\nRNG.NEXT\nRNG.NEXT\n\nHALT" =
    some [0x1000, 0x1161, 0x1162, 0x1163, 0x1200, 0x2000, 0x2100, 0x2100, 0x0100] := by decide

/-! ### Witnesses: the encoding and the execute cycle -/

/-- A machine running the given words, from the launch. -/
def running (words : List CmdWord) : State := launched words [] []

theorem no_row_1001 (i : Instr) : fitsRow i 0x1001 = false := by
  cases i <;> simp [fitsRow, rowOf]

theorem witness_EncodeOfDecodeIsTheWord : decode 0x11FF = .command (.crcUpd 0xFF) := by decide

/-- Both parts: a word with a row, and one that no row matches. -/
theorem witness_DecoderIsTheOpcodeTable :
    decode 0x0100 = .command .halt ∧ (∃ why, decode 0x1001 = .illegal why) ∧ ∀ i, fitsRow i 0x1001 = false :=
  ⟨by decide, ⟨.strayImmediate 0x10 0x01, by decide⟩, no_row_1001⟩

theorem witness_StepExecutesDecodedCommand :
    (running [0x2000]).state = .running ∧
      (running [0x2000]).cmdWords[(running [0x2000]).cp.toNat]? = some 0x2000 ∧
      decode 0x2000 = .command .rngSeed := by decide

/-- `CP` = `CMD_LEN`, the boundary, and an empty stream. -/
theorem witness_FetchPastEndIsRaised_fault :
    (start.state = .running ∧ start.launch.cmdLen.toNat ≤ start.cp.toNat) ∧
      ({ running [0x0100] with cp := 1 }.state = .running ∧
        { running [0x0100] with cp := 1 }.launch.cmdLen.toNat ≤ { running [0x0100] with cp := 1 }.cp.toNat) := by
  decide

theorem witness_FetchPastEndIsRaised_halt :
    ∃ t, (running [0x0100]).state = .running ∧ step (running [0x0100]) = .next t ∧ t.state = .halted :=
  ⟨{ running [0x0100] with state := .halted }, rfl, rfl, rfl⟩

theorem witness_IllegalCommandIsRaised :
    (running [0x1001]).state = .running ∧
      (running [0x1001]).cmdWords[(running [0x1001]).cp.toNat]? = some 0x1001 ∧
      ∀ i, fitsRow i 0x1001 = false :=
  ⟨rfl, by decide, no_row_1001⟩

theorem witness_AfterDoneOnlyHaltRuns :
    { start with done := true }.done = true ∧ Instr.rngNext ≠ .halt := by decide

theorem witness_StepOutsideRunningDoesNothing :
    State.reset.state ≠ .running ∧ { start with state := .halted }.state ≠ .running ∧
      { start with state := .faulted }.state ≠ .running := by decide

/-- Start in IDLE, in another state, a load, and a step. -/
theorem witness_StateTransitions :
    State.reset.state = .idle ∧ start.state ≠ .idle ∧ HostMove.loadId [] ≠ .assertReset ∧
      HostMove.loadId [] ≠ .pulseStart ∧ ∃ t, step start = .next t :=
  ⟨rfl, by decide, by decide, by decide, _, rfl⟩

theorem witness_StepMovesCpByOneOrStops :
    start.state = .running ∧ step start = .next (start.takeFault .fetchPastEnd) ∧
      State.reset.state ≠ .running ∧ step State.reset = .next State.reset ∧ HostMove.pulseStart ≠ .assertReset :=
  ⟨rfl, rfl, by decide, rfl, by decide⟩

theorem witness_RunEndsWithinCommandsLeft :
    start.state = .running ∧ ∃ t,
      Sys2Proof.core.run (start.launch.cmdLen.toNat - start.cp.toNat + 1) start = .next t :=
  ⟨rfl, start.takeFault .fetchPastEnd, rfl⟩

/-- No region, and the smallest one, of a file of eight bytes. -/
theorem witness_StepIsTotal :
    start.RegionParsed ∧ { launched [] [] magicBytes with ctLen := some 0 }.RegionParsed :=
  ⟨by rintro n ⟨⟩, by rintro n ⟨⟩; decide⟩

/-! ### Witnesses: checksum and generator -/

theorem witness_CrcInitStartsChecksum : start.done = false := rfl

theorem witness_CrcUpdFeedsByte :
    (start.done = false ∧ start.crcValid = false) ∧
      { start with crcAcc := some 0xFFFFFFFF }.done = false ∧
      { start with crcAcc := some 0xFFFFFFFF }.crcAcc = some 0xFFFFFFFF := by decide

theorem witness_CrcFinCreatesSeed :
    (start.done = false ∧ start.crcValid = false) ∧ { start with seed := some 0 }.seedValid = true ∧
      { start with crcAcc := some 0xCADBBE3D }.crcAcc = some 0xCADBBE3D ∧ start.seed = none := by decide

/-- The three clauses; the scan's at the last ASCII byte and the first byte above. -/
theorem witness_CrcIdChecksumsIdentifier :
    { start with seed := some 0 }.seedValid = true ∧
      ((launched [] [0x80] []).done = false ∧ (launched [] [0x80] []).seed = none ∧
        (launched [] [0x80] []).cfg.idAsciiCheck = true ∧ ∃ b ∈ (launched [] [0x80] []).idBytes, 0x7F < b) ∧
      ((launched [] [0x7F] []).done = false ∧ (launched [] [0x7F] []).seed = none ∧
        ((launched [] [0x7F] []).cfg.idAsciiCheck = true →
          ∀ b ∈ (launched [] [0x7F] []).idBytes, ¬ 0x7F < b)) := by decide

theorem witness_ByteCommandsComputeChecksum :
    start.state ≠ .faulted ∧ start.done = false ∧ start.seed = none := by decide

theorem witness_RngSeedCreatesGenerator :
    (start.done = false ∧ start.seedValid = false) ∧ { start with w := some mushWords }.rngValid = true ∧
      { start with seed := some 1 }.seed = some 1 ∧ { start with seed := some 1 }.w = none := by decide

theorem witness_RngNextDrawsOutput :
    (start.done = false ∧ start.rngValid = false) ∧ { start with w := some mushWords }.done = false ∧
      { start with w := some mushWords }.w = some mushWords := by decide

theorem witness_WordsAfterDrawsAreOutputs : 1 ≤ 4 ∧ 2 ≤ 4 ∧ 3 ≤ 4 ∧ 4 ≤ 4 := by decide

theorem witness_GeneratorStepIsInjective : rngAdvance mushWords = rngAdvance mushWords := rfl

/-! ### Witnesses: derivation and parser -/

/-- Before KDF.KEY, and before KDF.IV. -/
def beforeKey : State := { start with w := some mushWords }
def beforeIv : State := { start with w := some wordsAfterKey, key := some k0 }

/-- The SequenceFault conditions; a bad entry at the first draw (V-KDF-5) and one at the last; a good table. -/
theorem witness_KdfKeyDerivesFromDraws :
    (start.done = false ∧ start.rngValid = false) ∧ beforeIv.keyValid = true ∧
      beforeKey.done = false ∧ beforeKey.w = some mushWords ∧ beforeKey.key = none ∧
      hexDigitOf (drawnChar (t0Except 0xEC 0x41) mushWords 0) = none ∧
      hexDigitOf (drawnChar (t0Except 0x07 0x41) mushWords 31) = none ∧
      ∀ j < 32, hexDigitOf (drawnChar beforeKey.cfg.kmtRom mushWords j) ≠ none := by decide +kernel

/-- As for KDF.KEY; entry 0xC2 is V-KDF-7's. -/
theorem witness_KdfIvDerivesFromDraws :
    (start.done = false ∧ start.rngValid = false) ∧ beforeKey.keyValid = false ∧
      { beforeIv with iv := some v0 }.ivValid = true ∧
      beforeIv.done = false ∧ beforeIv.w = some wordsAfterKey ∧ beforeIv.keyValid = true ∧ beforeIv.iv = none ∧
      hexDigitOf (drawnChar (t0Except 0xC2 0x20) wordsAfterKey 1) = none ∧
      ∀ j < 32, hexDigitOf (drawnChar beforeIv.cfg.kmtRom wordsAfterKey j) ≠ none := by decide +kernel

/-- `T0` satisfies `KMT_WF` (section 1). -/
theorem witness_WellFormedTableNeverFaults :
    KmtWf start.cfg.kmtRom ∧ start.cause ≠ .kdfParseError ∧ ∃ t, exec .crcInit start = .next t :=
  ⟨by unfold KmtWf; decide, by decide, _, rfl⟩

/-- The four clauses, the length at 7 and at 8. -/
theorem witness_FrmParseChecksMarker :
    { start with ctLen := some 0 }.ctValid = true ∧
      ((launched [] [] (magicBytes.take 7)).ctLen = none ∧
        (launched [] [] (magicBytes.take 7)).launch.fileLen.toNat < 8) ∧
      (8 ≤ (launched [] [] magicBytes.reverse).launch.fileLen.toNat ∧
        (launched [] [] magicBytes.reverse).fileBytes.drop
          ((launched [] [] magicBytes.reverse).launch.fileLen.toNat - 8) ≠ magicBytes) ∧
      ((launched [] [] magicBytes).done = false ∧ (launched [] [] magicBytes).ctLen = none ∧
        8 ≤ (launched [] [] magicBytes).launch.fileLen.toNat ∧
        (launched [] [] magicBytes).fileBytes.drop ((launched [] [] magicBytes).launch.fileLen.toNat - 8) =
          magicBytes) := by decide

/-! ### Witnesses: cipher stage -/

theorem witness_ChainedDecryptionOfBlocks : ([] : List Byte).length = 16 * 0 ∧ paddingRegion.length = 16 * 1 := by
  decide

/-- Both directions, at the longest pad and at the shortest. -/
theorem witness_PaddingRemovalIsExact :
    List.replicate 16 (0x10 : Byte) ≠ [] ∧ (List.replicate 16 (0x10 : Byte)).length % 16 = 0 ∧
      stripPadding (List.replicate 16 0x10) = some [] ∧
      List.replicate 15 0 ++ [1] = List.replicate 15 (0 : Byte) ++ List.replicate 1 (BitVec.ofNat 8 1) := by decide

theorem witness_DecryptionUndoesEncryption : ∀ b : Block, id (id b) = b := fun _ => rfl

theorem witness_TamperedRegionChangesPlaintext :
    Function.Injective (id : Block → Block) ∧ paddingRegion.length = (List.replicate 16 (0x10 : Byte)).length ∧
      (List.replicate 16 (0x10 : Byte)).length % 16 = 0 ∧ List.replicate 16 0x10 ≠ paddingRegion ∧
      stripPadding (chainDecrypt id (.tabulate fun _ => 0) (regionBlocks (List.replicate 16 0x10))) = some [] :=
  ⟨Function.injective_id, by decide⟩

/-- A missing value, a decryption that fails, and one that completes (V-DEC-4 under both values). -/
theorem witness_DecRunDecryptsRegion :
    (start.done = false ∧ start.keyValid = false) ∧
      ((beforeDecRun []).done = false ∧ (beforeDecRun []).key = some k0 ∧ (beforeDecRun []).iv = some v0 ∧
        (beforeDecRun []).ctLen = some 0 ∧
        decrypt (beforeDecRun []).cfg ((beforeDecRun []).fileBytes.take (0 : Word).toNat) k0 v0 = none) ∧
      beforeEmpty.done = false ∧ beforeEmpty.key = some k0 ∧ beforeEmpty.iv = some v0 ∧ beforeEmpty.ctLen = some 0 ∧
      (0 : Word).toNat ≤ beforeEmpty.launch.fileLen.toNat ∧
      decrypt beforeEmpty.cfg (beforeEmpty.fileBytes.take (0 : Word).toNat) k0 v0 = some [] := by decide

/-- What the cipher claims ask of a state and a region length. -/
def readyFor (s : State) (n : Word) : Bool :=
  !s.done && s.key == some k0 && s.iv == some v0 && s.ctLen == some n &&
    decide (n.toNat ≤ s.launch.fileLen.toNat)

theorem witness_HaltAfterDecRunDeliversPlaintext :
    beforeEmpty.state = .running ∧ readyFor beforeEmpty 0 = true ∧
      decrypt beforeEmpty.cfg (beforeEmpty.fileBytes.take (0 : Word).toNat) k0 v0 = some [] := by decide

/-! ### Witnesses: RUN and the faults -/

/-- The launch of V-E2E-1. -/
def e2e : State := launched [] mushId e2eFile

theorem witness_RunCompletes :
    launchedEmpty.done = false ∧ launchedEmpty.seed = none ∧ launchedEmpty.w = none ∧ launchedEmpty.key = none ∧
      launchedEmpty.iv = none ∧ launchedEmpty.ctLen = none ∧
      (launchedEmpty.cfg.idAsciiCheck = true → ∀ b ∈ launchedEmpty.idBytes, ¬ 0x7F < b) ∧
      deriveSequence launchedEmpty.cfg.kmtRom (rngSeed (checksum launchedEmpty.idBytes)) = some (k0, wordsAfterKey) ∧
      deriveSequence launchedEmpty.cfg.kmtRom wordsAfterKey = some (v0, wordsAfterIv) ∧
      8 ≤ launchedEmpty.launch.fileLen.toNat ∧
      launchedEmpty.fileBytes.drop (launchedEmpty.launch.fileLen.toNat - 8) = magicBytes ∧
      decrypt launchedEmpty.cfg (launchedEmpty.fileBytes.take (launchedEmpty.launch.fileLen.toNat - 8)) k0 v0 =
        some [] := by decide +kernel

theorem witness_RunIsTheSixCommands : e2e.state ≠ .faulted := by decide

/-- A sequence that completes, and an identifier and a file of seven bytes that are both bad (P14). -/
theorem witness_ParseMayComeFirst :
    (match execSeq [.frmParse, .crcId, .rngSeed, .kdfKey, .kdfIv, .decRun] launchedEmpty with
      | .next t => decide (t.state ≠ .faulted)
      | .fault _ | .refused _ => false) = true ∧
      (launched [] [0x80] (magicBytes.take 7)).cfg.idAsciiCheck = true ∧
      (launched [] [0x80] (magicBytes.take 7)).seed = none ∧ (launched [] [0x80] (magicBytes.take 7)).ctLen = none ∧
      (∃ b ∈ (launched [] [0x80] (magicBytes.take 7)).idBytes, 0x7F < b) ∧
      (launched [] [0x80] (magicBytes.take 7)).launch.fileLen.toNat < 8 := by decide +kernel

theorem witness_FaultEntryIsPrecise :
    Instr.rngSeed ≠ .run ∧ start.state ≠ .faulted ∧
      exec .rngSeed start = .next (start.takeFault .sequenceFault) ∧
      (start.takeFault .sequenceFault).state = .faulted :=
  ⟨by decide, by decide, rfl, rfl⟩

/-- The other branch: CryptoError, of V-DEC-4. -/
theorem witness_FaultEntryIsPrecise_crypto :
    (after .decRun (beforeDecRun [])).map State.cause = some .cryptoError ∧
      (beforeDecRun []).state ≠ .faulted := by decide

/-- Both sides: a command that raises it, and one that does not. -/
theorem witness_SequenceFaultExactly :
    start.cause ≠ .sequenceFault ∧ (∃ t, exec .rngSeed start = .next t) ∧ sequenceCondition start .rngSeed = true ∧
      (∃ t, exec .crcInit start = .next t) ∧ sequenceCondition start .crcInit = false :=
  ⟨by decide, ⟨_, rfl⟩, by decide, ⟨_, rfl⟩, by decide⟩

/-- The places of R277 in order: each fault's condition in a launch in which the ones before it do not hold. -/
theorem witness_RunReportsFirstFault :
    { start with seed := some 0 }.seedValid = true ∧
      ((launched [] [0x80] []).done = false ∧ (launched [] [0x80] []).seed = none ∧
        (launched [] [0x80] []).cfg.idAsciiCheck = true ∧ ∃ b ∈ (launched [] [0x80] []).idBytes, 0x7F < b) ∧
      ((launched [] [0x7F] []).seed = none ∧ (∀ b ∈ (launched [] [0x7F] []).idBytes, ¬ 0x7F < b) ∧
        { launched [] [0x7F] [] with w := some mushWords }.rngValid = true) ∧
      (rngSeed (checksum e2e.idBytes) = mushWords ∧ { e2e with key := some k0 }.keyValid = true ∧
        { e2e with iv := some v0 }.ivValid = true ∧ { e2e with ctLen := some 0 }.ctValid = true) := by decide +kernel

/-- The rest of the places: a bad entry met by the key and by the IV (V-KDF-5, V-KDF-7), good sequences, a file too
short, and a region that does not decrypt (V-DEC-4). -/
theorem witness_RunReportsFirstFault_derivation :
    deriveSequence (t0Except 0xEC 0x41) mushWords = none ∧
      deriveSequence (t0Except 0xC2 0x20) mushWords = some (k0, wordsAfterKey) ∧
      deriveSequence (t0Except 0xC2 0x20) wordsAfterKey = none ∧
      deriveSequence t0Image mushWords = some (k0, wordsAfterKey) ∧
      deriveSequence t0Image wordsAfterKey = some (v0, wordsAfterIv) ∧
      (launched [] mushId (magicBytes.take 7)).launch.fileLen.toNat < 8 ∧
      (launched [] mushId magicBytes).fileBytes.drop 0 = magicBytes ∧
      decrypt (launched [] mushId magicBytes).cfg [] k0 v0 = none := by decide +kernel

/-! ### Witnesses: frames, whole-machine rules and invariants -/

theorem witness_ChecksumFrame :
    (∃ t, exec .crcInit start = .next t) ∧ (∃ t, exec (.crcUpd 0) start = .next t) ∧
      (∃ t, exec .crcFin start = .next t) ∧ ∃ t, exec .crcId { start with seed := some 0 } = .next t :=
  ⟨⟨_, rfl⟩, ⟨_, rfl⟩, ⟨_, rfl⟩, ⟨_, rfl⟩⟩

theorem witness_GeneratorFrame :
    (∃ t, exec .rngSeed { start with seed := some 1 } = .next t) ∧
      ∃ t, exec .rngNext { start with w := some mushWords } = .next t := ⟨⟨_, rfl⟩, ⟨_, rfl⟩⟩

theorem witness_DerivationFrame :
    (after .kdfKey beforeKey).isSome = true ∧ (after .kdfIv beforeIv).isSome = true := by decide

theorem witness_ParserAndHaltFrame :
    (after .frmParse (launched [] [] magicBytes)).isSome = true ∧ (∃ t, exec .halt start = .next t) :=
  ⟨by decide, _, rfl⟩

/-- DEC.RUN and RUN where they complete, and a RUN that stops before the cipher stage. -/
theorem witness_DecryptionFrame :
    beforeEmpty.state ≠ .faulted ∧ launchedEmpty.state ≠ .faulted ∧
      (after .decRun beforeEmpty).map State.state = some .running ∧
      (after .run launchedEmpty).map State.state = some .running ∧
      (after .run start).map (fun t => (t.state, t.cause)) = some (.faulted, .formatError) := by decide +kernel

theorem witness_NoStepWritesTheLaunch : ∃ t, step e2e = .next t := ⟨e2e.takeFault .fetchPastEnd, rfl⟩

/-- A step that leaves the Seed, and the DEC.RUN that discards it. -/
theorem witness_SeedIsImmutable :
    { start with seed := some 7 }.seed = some 7 ∧ (afterStep { start with seed := some 7 }).isSome = true ∧
      (after .decRun { beforeEmpty with seed := some 7 }).map (fun t => (t.seed, t.done)) =
        some (none, true) := by decide

theorem witness_OnlyParserAndCipherReadFile :
    Instr.crcId ≠ .frmParse ∧ Instr.crcId ≠ .decRun ∧ Instr.crcId ≠ .run := by decide

theorem witness_StepKeepsFaultRecord : start.FaultRecord ∧ ∃ t, step start = .next t :=
  ⟨⟨by decide, rfl⟩, _, rfl⟩

theorem witness_StepKeepsMemoriesCanonical : e2e.MemoriesCanonical ∧ ∃ t, step e2e = .next t :=
  ⟨by unfold State.MemoriesCanonical; decide, e2e.takeFault .fetchPastEnd, rfl⟩

theorem witness_StepKeepsLifecycle : start.Lifecycle ∧ ∃ t, step start = .next t :=
  ⟨⟨by rintro n ⟨⟩, by unfold State.CreationOrder; decide, by unfold State.DoneDiscards; decide,
    ⟨fun _ => rfl, by rintro p n ⟨⟩⟩, ⟨by decide +kernel, by decide +kernel, by rintro n ⟨⟩, by rintro n ⟨⟩⟩,
      by decide +kernel, by decide +kernel⟩,
    _, rfl⟩

/-! ### Witnesses: what the host sees -/

theorem witness_StatusRegistersReadWhenValid :
    start.state = .running ∧ StatusReg.seed ≠ .status ∧ StatusReg.seed ≠ .cp ∧ State.reset.state = .idle ∧
      (start.takeFault .sequenceFault).state = .faulted ∧ (start.takeFault .sequenceFault).faultCp = some 0 ∧
      { start with state := .halted, seed := some 7 }.readStatusReg .seed = some 7 := by decide

/-- R304: `PT` is read after HALTED and below `PT_LEN`, and not at it; no result while RUNNING. -/
theorem test_host_reads :
    { start with state := .halted, ptLen := some 1, pt := [(0, 0x41)] }.readPt 0 = some 0x41 ∧
      { start with state := .halted, ptLen := some 1, pt := [(0, 0x41), (1, 0x0F)] }.readPt 1 = none ∧
      { start with state := .faulted, ptLen := some 1, pt := [(0, 0x41)] }.readPt 0 = none ∧
      { start with seed := some 7 }.readStatusReg .seed = none ∧
      { start with seed := some 7 }.readStatusReg .cp = none := by decide

/-- The longest command stream, and inputs of no bytes. -/
theorem witness_LaunchLoadsSequences :
    start.cfg.widthsFit = true ∧ cmdStreamWf start.cfg (List.replicate 65535 0x0100) = true ∧
      inputBytesWf start.cfg [] = true ∧ inputBytesWf start.cfg e2eFile = true :=
  ⟨by decide, by rw [cmdStreamWf, List.length_replicate, List.all_replicate]; rfl, by decide, by decide⟩

end Sys2Proof.Tests
end

/-!
SUPPORT. Pre- and postconditions of bodies: what a body ends in, with one rule per body and one for bodies in
sequence. A body that ends in anything is not stuck.
-/

namespace Sys2Proof.Machine

/-- The body is done in a state of `P` or raises a fault in a state of `R`; it is not stuck. -/
def SubStep.Ends (P R : State → Prop) : SubStep → Prop
  | .done t => P t
  | .raise _ t => R t
  | .stuck _ => False

section
variable {P Q R : State → Prop} {s t : State} {c : Cause} {r : SubStep}

theorem SubStep.Ends.of_done (h : r = .done t) (ht : P t) : r.Ends P R := by subst h; exact ht

theorem SubStep.Ends.of_raise (h : r = .raise c t) (ht : R t) : r.Ends P R := by subst h; exact ht

theorem SubStep.Ends.of_eq_done (hr : r.Ends P R) (h : r = .done t) : P t := by subst h; exact hr

theorem SubStep.Ends.of_eq_raise (hr : r.Ends P R) (h : r = .raise c t) : R t := by subst h; exact hr

theorem SubStep.Ends.mono (hr : r.Ends P R) (h : ∀ t, P t → Q t) : r.Ends Q R := by
  cases r with
  | done t => exact h t hr
  | raise c t => exact hr
  | stuck f => exact hr

/-- The rule of bodies in sequence. -/
theorem SubStep.Ends.andThen {next : State → SubStep} (hr : r.Ends P R) (hn : ∀ t, P t → (next t).Ends Q R) :
    (r.andThen next).Ends Q R := by
  cases r with
  | done t => exact hn t hr
  | raise c t => exact hr
  | stuck f => exact hr.elim

/-- A body that is not stuck gives a next state. -/
theorem SubStep.Ends.finish_next (hr : r.Ends P R) : ∃ t, r.finish = .next t := by
  cases r with
  | done t => exact ⟨_, rfl⟩
  | raise c t => exact ⟨_, rfl⟩
  | stuck f => exact hr.elim

theorem crcInitBody_ends (hd : P { s with crcAcc := some crcInitValue }) : (crcInitBody s).Ends P R := hd

theorem crcUpdBody_ends (b : Byte) (hr : R s) (hd : ∀ v, P { s with crcAcc := some v }) :
    (crcUpdBody b s).Ends P R := by
  rcases crcUpdBody_cases b s with ⟨-, e⟩ | ⟨acc, -, e⟩
  · exact .of_raise e hr
  · exact .of_done e (hd _)

theorem crcFinBody_ends (hr : R s) (hd : ∀ v, s.seed = none → P { s with seed := some v, crcAcc := none }) :
    (crcFinBody s).Ends P R := by
  rcases crcFinBody_cases s with ⟨-, e⟩ | ⟨acc, -, hs, e⟩
  · exact .of_raise e hr
  · exact .of_done e (hd _ hs)

theorem crcIdBody_ends (hr : R s) (hd : ∀ v, s.seed = none → P { s with seed := some v, crcAcc := none }) :
    (crcIdBody s).Ends P R := by
  rcases crcIdBody_cases s with ⟨-, e⟩ | ⟨-, -, e⟩ | ⟨hs, -, e⟩
  · exact .of_raise e hr
  · exact .of_raise e hr
  · exact .of_done e (hd _ hs)

theorem rngSeedBody_ends (hr : R s) (hd : ∀ w, s.seed.isSome → s.w = none → P { s with w := some w }) :
    (rngSeedBody s).Ends P R := by
  rcases rngSeedBody_cases s with ⟨-, e⟩ | ⟨v, hs, hw, e⟩
  · exact .of_raise e hr
  · exact .of_done e (hd _ (by simp [hs]) hw)

theorem rngNextBody_ends (hr : R s) (hd : ∀ v w, s.w.isSome → P { s with rnd := some v, w := some w }) :
    (rngNextBody s).Ends P R := by
  rcases rngNextBody_cases s with ⟨-, e⟩ | ⟨w, hw, e⟩
  · exact .of_raise e hr
  · exact .of_done e (hd _ _ (by simp [hw]))

theorem kdfKeyBody_ends (hr : R s)
    (hd : ∀ k w, s.w.isSome → s.key = none → P { s with key := some k, w := some w }) :
    (kdfKeyBody s).Ends P R := by
  rcases kdfKeyBody_cases s with ⟨-, e⟩ | ⟨w, -, -, -, e⟩ | ⟨w, k, w', hw, hk, -, e⟩
  · exact .of_raise e hr
  · exact .of_raise e hr
  · exact .of_done e (hd _ _ (by simp [hw]) hk)

theorem kdfIvBody_ends (hr : R s)
    (hd : ∀ v w, s.w.isSome → s.key.isSome → s.iv = none → P { s with iv := some v, w := some w }) :
    (kdfIvBody s).Ends P R := by
  rcases kdfIvBody_cases s with ⟨-, e⟩ | ⟨w, -, -, -, -, e⟩ | ⟨w, v, w', hw, hk, hv, -, e⟩
  · exact .of_raise e hr
  · exact .of_raise e hr
  · exact .of_done e (hd _ _ (by simp [hw]) hk hv)

theorem frmParseBody_ends (hr : R s)
    (hd : s.ctLen = none → 8 ≤ s.launch.fileLen → P { s with ctLen := some (s.launch.fileLen - 8) }) :
    (frmParseBody s).Ends P R := by
  rcases frmParseBody_cases s with ⟨-, e⟩ | ⟨-, -, e⟩ | ⟨hn, h8, -, e⟩
  · exact .of_raise e hr
  · exact .of_raise e hr
  · exact .of_done e (hd hn h8)

/-- A parsed region lies in the file. -/
theorem State.RegionParsed.toNat_eq {n : Word} (h : s.RegionParsed) (hn : s.ctLen = some n) :
    n.toNat + 8 = s.launch.fileLen.toNat := by
  obtain ⟨h8, rfl⟩ := h n hn
  bv_omega

/-- The plaintext of a completing DEC.RUN is shorter than the region, or both are empty (spec/10_state.md R37), and
`PT` then lists exactly its indices. -/
theorem decRunBody_ends (hr : R s) (hp : s.RegionParsed)
    (hd : ∀ n plain pt, s.ctLen = some n → (n.toNat = 0 ∧ plain = [] ∨ plain.length < n.toNat) →
      pt.map Prod.fst = List.range plain.length → P (s.completeDecryption plain pt)) :
    (decRunBody s).Ends P R := by
  rcases decRunBody_cases s with ⟨-, e⟩ | ⟨k, v, n, -, -, hn, h⟩
  · exact .of_raise e hr
  have hlen := hp.toNat_eq hn
  rcases h with ⟨hlt, -⟩ | ⟨hle, ⟨-, e⟩ | ⟨plain, pt, hdec, hpt, e⟩⟩
  · omega
  · exact .of_raise e hr
  · have hregion : (s.fileBytes.take n.toNat).length = n.toNat := by
      simpa [State.fileBytes, sequenceOf] using hle
    have hplain : n.toNat = 0 ∧ plain = [] ∨ plain.length < n.toNat := by
      rcases decrypt_length hdec with ⟨hnil, hempty⟩ | hlt
      · exact .inl ⟨by rw [← hregion, hnil]; rfl, hempty⟩
      · exact .inr (hregion ▸ hlt)
    obtain ⟨pt', hpt', -, hkeys, -⟩ := memWrite_empty plain (by
      have := n.isLt
      rcases hplain with ⟨-, rfl⟩ | hlt
      · simp
      · omega)
    obtain rfl : pt' = pt := Option.some.inj (hpt'.symm.trans hpt)
    exact .of_done e (hd n plain pt' hn hplain hkeys)

end

end Sys2Proof.Machine

/-!
The step is total where a parsed region lies in the file: every body keeps `State.RegionParsed` and is not stuck.
-/

namespace Sys2Proof.Machine

theorem State.RegionParsed.parse {s : State} (h8 : 8 ≤ s.launch.fileLen) :
    State.RegionParsed { s with ctLen := some (s.launch.fileLen - 8) } := by
  rintro n ⟨⟩
  exact ⟨h8, rfl⟩

/-- A body begun in a state of `I` is not stuck, and ends in a state of `I`, done or at a fault. -/
def Preserves (I : State → Prop) (body : State → SubStep) : Prop :=
  ∀ s, I s → (body s).Ends I I

/-- Only FRM.PARSE writes `CT_LEN`, and it records the region; so every body keeps the region inside the file. -/
theorem bodyOf_preserves_regionParsed (i : Instr) : Preserves State.RegionParsed (bodyOf i) := by
  intro s h
  have hcrcId : Preserves State.RegionParsed crcIdBody := fun t ht => crcIdBody_ends ht fun _ _ => ht
  have hrngSeed : Preserves State.RegionParsed rngSeedBody := fun t ht => rngSeedBody_ends ht fun _ _ _ => ht
  have hkdfKey : Preserves State.RegionParsed kdfKeyBody := fun t ht => kdfKeyBody_ends ht fun _ _ _ _ => ht
  have hkdfIv : Preserves State.RegionParsed kdfIvBody := fun t ht => kdfIvBody_ends ht fun _ _ _ _ _ => ht
  have hfrmParse : Preserves State.RegionParsed frmParseBody := fun t ht => frmParseBody_ends ht fun _ => .parse
  have hdecRun : Preserves State.RegionParsed decRunBody := fun t ht => decRunBody_ends ht ht fun _ _ _ _ _ _ => ht
  cases i with
  | halt => exact h
  | run =>
    exact (((((hcrcId s h).andThen hrngSeed).andThen hkdfKey).andThen hkdfIv).andThen hfrmParse).andThen hdecRun
  | crcInit => exact crcInitBody_ends h
  | crcUpd b => exact crcUpdBody_ends b h fun _ => h
  | crcFin => exact crcFinBody_ends h fun _ _ => h
  | crcId => exact hcrcId s h
  | rngSeed => exact hrngSeed s h
  | rngNext => exact rngNextBody_ends h fun _ _ _ => h
  | kdfKey => exact hkdfKey s h
  | kdfIv => exact hkdfIv s h
  | frmParse => exact hfrmParse s h
  | decRun => exact hdecRun s h

/-- A command answers a next state where a parsed region lies in the file. -/
theorem exec_total (i : Instr) {s : State} (h : s.RegionParsed) : ∃ t, exec i s = .next t := by
  by_cases hi : i = .halt
  · subst hi
    exact ⟨_, exec_halt s⟩
  rw [exec_eq_runCommand hi]
  cases hd : s.done with
  | true => exact ⟨_, runCommand_done hd _⟩
  | false =>
    rw [runCommand_ready hd]
    exact (bodyOf_preserves_regionParsed i s h).finish_next

/-- Settles O13: a fetch never refuses, and a command's body is stuck only on a region outside the file. -/
theorem stepIsTotal : Obligations.StepIsTotal := by
  unfold Obligations.StepIsTotal
  intro s h
  by_cases hr : s.state = .running
  · rw [step_running hr]
    rcases fetch_cases s with ⟨-, e⟩ | ⟨w, -, ⟨i, -, e⟩ | ⟨why, -, e⟩⟩ <;> rw [e]
    · exact ⟨_, rfl⟩
    · exact exec_total i h
    · exact ⟨_, rfl⟩
  · exact ⟨s, step_stopped hr⟩

end Sys2Proof.Machine

/-!
Every step keeps the lifecycle. Before the decryption the lifecycle is `State.Undecrypted`, which every body but
DEC.RUN keeps and every fault leaves; DEC.RUN leads from it to the lifecycle of a decrypted state.
-/

namespace Sys2Proof.Machine

/-- The lifecycle before the decryption is done: there is no plaintext, and nothing is discarded yet (R24). -/
structure State.Undecrypted (s : State) : Prop where
  done_eq   : s.done = false
  ptLen_eq  : s.ptLen = none
  pt_eq     : s.pt = []
  region    : s.RegionParsed
  creation  : s.CreationOrder
  widths    : s.WithinWidths

theorem State.Lifecycle.undecrypted {s : State} (h : s.Lifecycle) (hd : s.done = false) : s.Undecrypted := by
  obtain ⟨hregion, hcreation, ⟨hdone, -⟩, ⟨hpt, -⟩, hwidths⟩ := h
  have hnone : s.ptLen = none := by simpa [State.ptValid, hd] using hdone
  exact ⟨hd, hnone, hpt hnone, hregion, hcreation, hwidths⟩

theorem State.Undecrypted.lifecycle {s : State} (h : s.Undecrypted) : s.Lifecycle := by
  refine ⟨h.region, h.creation, ⟨?_, ?_⟩, ⟨fun _ => h.pt_eq, ?_⟩, h.widths⟩
  · rw [h.done_eq, State.ptValid, h.ptLen_eq]
    rfl
  · simp [h.done_eq]
  · simp [h.ptLen_eq]

/-! ### Bodies -/

section
variable {s : State} (h : s.Undecrypted)
include h

theorem crcInitBody_undecrypted : (crcInitBody s).Ends State.Undecrypted State.Undecrypted :=
  crcInitBody_ends ⟨h.done_eq, h.ptLen_eq, h.pt_eq, h.region, h.creation, h.widths⟩

theorem crcUpdBody_undecrypted (b : Byte) : (crcUpdBody b s).Ends State.Undecrypted State.Undecrypted :=
  crcUpdBody_ends b h fun _ => ⟨h.done_eq, h.ptLen_eq, h.pt_eq, h.region, h.creation, h.widths⟩

/-- A Seed comes first in the order of creation, so recording one keeps it. -/
theorem State.Undecrypted.recordSeed (v : Word) :
    State.Undecrypted { s with seed := some v, crcAcc := none } := by
  obtain ⟨-, hrnd, hkey, hiv⟩ := h.creation
  exact ⟨h.done_eq, h.ptLen_eq, h.pt_eq, h.region, ⟨fun _ => rfl, hrnd, hkey, hiv⟩, h.widths⟩

theorem crcFinBody_undecrypted : (crcFinBody s).Ends State.Undecrypted State.Undecrypted :=
  crcFinBody_ends h fun v _ => h.recordSeed v

theorem crcIdBody_undecrypted : (crcIdBody s).Ends State.Undecrypted State.Undecrypted :=
  crcIdBody_ends h fun v _ => h.recordSeed v

theorem rngSeedBody_undecrypted : (rngSeedBody s).Ends State.Undecrypted State.Undecrypted :=
  rngSeedBody_ends h fun _ hseed _ =>
    ⟨h.done_eq, h.ptLen_eq, h.pt_eq, h.region,
      ⟨fun _ => hseed, fun _ => rfl, fun _ => rfl, h.creation.2.2.2⟩, h.widths⟩

theorem rngNextBody_undecrypted : (rngNextBody s).Ends State.Undecrypted State.Undecrypted := by
  obtain ⟨hrng, -, -, hiv⟩ := h.creation
  exact rngNextBody_ends h fun _ _ hw =>
    ⟨h.done_eq, h.ptLen_eq, h.pt_eq, h.region,
      ⟨fun _ => hrng hw, fun _ => rfl, fun _ => rfl, hiv⟩, h.widths⟩

theorem kdfKeyBody_undecrypted : (kdfKeyBody s).Ends State.Undecrypted State.Undecrypted := by
  obtain ⟨hrng, -, -, -⟩ := h.creation
  exact kdfKeyBody_ends h fun _ _ hw _ =>
    ⟨h.done_eq, h.ptLen_eq, h.pt_eq, h.region,
      ⟨fun _ => hrng hw, fun _ => rfl, fun _ => rfl, fun _ => rfl⟩, h.widths⟩

theorem kdfIvBody_undecrypted : (kdfIvBody s).Ends State.Undecrypted State.Undecrypted := by
  obtain ⟨hrng, -, -, -⟩ := h.creation
  exact kdfIvBody_ends h fun _ _ hw hk _ =>
    ⟨h.done_eq, h.ptLen_eq, h.pt_eq, h.region,
      ⟨fun _ => hrng hw, fun _ => rfl, fun _ => rfl, fun _ => hk⟩, h.widths⟩

theorem frmParseBody_undecrypted : (frmParseBody s).Ends State.Undecrypted State.Undecrypted := by
  obtain ⟨⟨hid, hfile, -, hpt⟩, hcp, hcmd⟩ := h.widths
  refine frmParseBody_ends h fun _ h8 =>
    ⟨h.done_eq, h.ptLen_eq, h.pt_eq, .parse h8, h.creation, ⟨hid, hfile, ?_, hpt⟩, hcp, hcmd⟩
  rintro n ⟨⟩
  have hle : (s.launch.fileLen - 8).toNat ≤ s.launch.fileLen.toNat := by bv_omega
  exact hle.trans_lt hfile

/-- A decryption whose plaintext is as short as R37 says leads to the lifecycle of a decrypted state. -/
theorem State.Undecrypted.completeDecryption {n : Word} {plain : List Byte} {pt : ByteMemory} (hn : s.ctLen = some n)
    (hlen : n.toNat = 0 ∧ plain = [] ∨ plain.length < n.toNat) (hpt : pt.map Prod.fst = List.range plain.length) :
    (s.completeDecryption plain pt).Lifecycle := by
  have hle : plain.length ≤ n.toNat := by
    rcases hlen with ⟨-, rfl⟩ | hlt
    · simp
    · exact hlt.le
  have htoNat : (BitVec.ofNat 32 plain.length).toNat = plain.length :=
    Nat.mod_eq_of_lt (hle.trans_lt n.isLt)
  obtain ⟨⟨hid, hfile, hct, -⟩, hcp, hcmd⟩ := h.widths
  refine ⟨h.region, ?creation, ⟨rfl, fun _ => ⟨?ctValid, rfl, rfl, rfl, rfl, rfl⟩⟩, ⟨?noPt, ?exact⟩,
    ⟨hid, hfile, hct, ?ptWidth⟩, hcp, hcmd⟩
  case creation =>
    simp [State.CreationOrder, State.rngValid, State.rndValid, State.keyValid, State.ivValid]
  case ctValid => simp [State.ctValid, hn]
  case noPt => simp
  case exact =>
    intro p m hp hm
    obtain rfl : BitVec.ofNat 32 plain.length = p := Option.some.inj hp
    obtain rfl : n = m := Option.some.inj (hn.symm.trans hm)
    rw [htoNat]
    exact ⟨hpt, fun _ => by omega, fun _ => by omega⟩
  case ptWidth =>
    rintro p ⟨⟩
    rw [htoNat]
    exact hle.trans_lt (hct n hn)

theorem decRunBody_lifecycle : (decRunBody s).Ends State.Lifecycle State.Undecrypted :=
  decRunBody_ends h h.region fun _ _ _ hn hlen hpt => h.completeDecryption hn hlen hpt

theorem runBody_lifecycle : (runBody s).Ends State.Lifecycle State.Undecrypted :=
  (((((crcIdBody_undecrypted h).andThen fun _ => rngSeedBody_undecrypted).andThen
    fun _ => kdfKeyBody_undecrypted).andThen fun _ => kdfIvBody_undecrypted).andThen
    fun _ => frmParseBody_undecrypted).andThen fun _ => decRunBody_lifecycle

/-- Every body begun before the decryption keeps the lifecycle, and where it raises a fault the decryption is still
to be done. -/
theorem bodyOf_lifecycle (i : Instr) : (bodyOf i s).Ends State.Lifecycle State.Undecrypted := by
  have keeps {r : SubStep} (hr : r.Ends State.Undecrypted State.Undecrypted) :
      r.Ends State.Lifecycle State.Undecrypted := hr.mono fun _ => State.Undecrypted.lifecycle
  cases i with
  | halt => exact h.lifecycle
  | run => exact runBody_lifecycle h
  | crcInit => exact keeps (crcInitBody_undecrypted h)
  | crcUpd b => exact keeps (crcUpdBody_undecrypted h b)
  | crcFin => exact keeps (crcFinBody_undecrypted h)
  | crcId => exact keeps (crcIdBody_undecrypted h)
  | rngSeed => exact keeps (rngSeedBody_undecrypted h)
  | rngNext => exact keeps (rngNextBody_undecrypted h)
  | kdfKey => exact keeps (kdfKeyBody_undecrypted h)
  | kdfIv => exact keeps (kdfIvBody_undecrypted h)
  | frmParse => exact keeps (frmParseBody_undecrypted h)
  | decRun => exact decRunBody_lifecycle h

/-- Fault entry before the decryption keeps the lifecycle: `PT` holds no value, before and after (R276). -/
theorem State.Undecrypted.takeFault (c : Cause) : (s.takeFault c).Lifecycle := by
  have hpt : (s.takeFault c).pt = [] := by
    unfold State.takeFault
    split
    · rfl
    · exact h.pt_eq
  refine State.Undecrypted.lifecycle ⟨by simpa using h.done_eq, by simpa using h.ptLen_eq, hpt, ?_, ?_, ?_⟩
  · simpa [State.RegionParsed] using h.region
  · simpa [State.CreationOrder, State.seedValid, State.rngValid, State.rndValid, State.keyValid, State.ivValid]
      using h.creation
  · simpa [State.WithinWidths, State.cmdWords] using h.widths

end

/-! ### Commands and steps -/

section
variable {s : State} (h : s.Lifecycle)
include h

/-- Fault entry for a cause other than CryptoError writes nothing the lifecycle speaks of. -/
theorem State.Lifecycle.takeFault {c : Cause} (hc : c ≠ .cryptoError) : (s.takeFault c).Lifecycle := by
  rw [State.takeFault_other s hc]
  exact h

/-- `CP` moves only inside the command stream, so it stays within its width (R21). -/
theorem State.Lifecycle.advance (hlt : s.cp.toNat < s.launch.cmdLen.toNat) : s.advance.Lifecycle := by
  obtain ⟨hregion, hcreation, hdone, hpt, hlens, ⟨-, hlen⟩, hcmd⟩ := h
  refine ⟨hregion, hcreation, hdone, hpt, hlens, ⟨?_, hlen⟩, hcmd⟩
  have hle : (s.cp + 1).toNat ≤ s.launch.cmdLen.toNat := by bv_omega
  exact hle.trans_lt hlen

/-- A command fetched inside the command stream keeps the lifecycle. -/
theorem exec_lifecycle {i : Instr} {t : State} (hlt : s.cp.toNat < s.launch.cmdLen.toNat) (he : exec i s = .next t) :
    t.Lifecycle := by
  rcases exec_next he with ⟨-, rfl⟩ | ⟨-, ⟨-, rfl⟩ | ⟨hd, ⟨u, hu, rfl⟩ | ⟨c, u, hu, rfl⟩⟩⟩
  · exact h
  · exact h.takeFault (by decide)
  · obtain ⟨-, hcp, -, -, hlaunch, -⟩ := bodyOf_keeps i s u hu
    exact ((bodyOf_lifecycle (h.undecrypted hd) i).of_eq_done hu).advance (by rwa [hcp, hlaunch])
  · exact ((bodyOf_lifecycle (h.undecrypted hd) i).of_eq_raise hu).takeFault c

end

/-- Settles O55, by the cases of a step: only a command inside the command stream writes a value the lifecycle speaks
of, and `bodyOf_lifecycle` says what it writes. -/
theorem stepKeepsLifecycle : Obligations.StepKeepsLifecycle := by
  unfold Obligations.StepKeepsLifecycle
  intro s t h hstep
  rcases step_next hstep with ⟨-, rfl⟩ | ⟨-, ⟨-, rfl⟩ | ⟨w, hw, ⟨why, -, rfl⟩ | ⟨i, -, he⟩⟩⟩
  · exact h
  · exact h.takeFault (by decide)
  · exact h.takeFault (by decide)
  · exact exec_lifecycle h (cmdWords_getElem? hw).1 he

end Sys2Proof.Machine

/-!
The launch (spec/70_reset_and_hazards.md R302): a loaded space reads back as the sequence the host wrote.
-/

namespace Sys2Proof.Machine

/-- The launch configuration the host's loads leave, whatever was there before. -/
def Launch.loaded (words : List CmdWord) (idBytes fileBytes : List Byte) : Launch where
  cmd     := Memory.writeAll inputUnlisted [] 0 words
  cmdLen  := BitVec.ofNat 16 words.length
  id      := Memory.writeAll inputUnlisted [] 0 idBytes
  idLen   := BitVec.ofNat 32 idBytes.length
  file    := Memory.writeAll inputUnlisted [] 0 fileBytes
  fileLen := BitVec.ofNat 32 fileBytes.length

theorem State.launchWith_eq (s : State) (words : List CmdWord) (idBytes fileBytes : List Byte) :
    s.launchWith words idBytes fileBytes =
      { State.resetWith (.loaded words idBytes fileBytes) s.cfg with state := .running } := rfl

/-- A space loaded from index 0 reads back as what was written. -/
theorem sequenceOf_writeAll {n : Nat} (vs : List (BitVec n)) :
    sequenceOf (Memory.writeAll inputUnlisted [] 0 vs) vs.length = vs := by
  apply List.ext_getElem
  · simp [sequenceOf]
  · intro i _ hi
    simp [sequenceOf, Memory.read_writeAll (u := inputUnlisted) (m := []) rfl, hi]

/-- A space loaded with its length in a register that holds it reads back as what was written. -/
theorem sequenceOf_loaded {n w : Nat} (vs : List (BitVec n)) (h : (BitVec.ofNat w vs.length).toNat = vs.length) :
    sequenceOf (Memory.writeAll inputUnlisted [] 0 vs) (BitVec.ofNat w vs.length).toNat = vs := by
  rw [h, sequenceOf_writeAll]

/-- A length below two to a power that fits the register is what the register holds. -/
theorem toNat_ofNat_of_lt_two_pow {k w x : Nat} (hk : k ≤ w) (hx : x < 2 ^ k) : (BitVec.ofNat w x).toNat = x :=
  Nat.mod_eq_of_lt (hx.trans_le (Nat.pow_le_pow_right (by decide) hk))

/-- Settles O60: each space reads back as its sequence since each length fits its register. -/
theorem launchLoadsSequences : Obligations.LaunchLoadsSequences := by
  unfold Obligations.LaunchLoadsSequences
  intro s words idBytes fileBytes hfit hwords hid hfile
  simp only [Config.widthsFit, cmdStreamWf, inputBytesWf, Bool.and_eq_true, decide_eq_true_eq, List.all_eq_true]
    at hfit hwords hid hfile
  obtain ⟨⟨hlenFit, hcpFit⟩, -⟩ := hfit
  obtain ⟨hcmdLen, hcmdWords⟩ := hwords
  have hcmdN : (BitVec.ofNat 16 words.length).toNat = words.length := toNat_ofNat_of_lt_two_pow hcpFit hcmdLen
  have hidN : (BitVec.ofNat 32 idBytes.length).toNat = idBytes.length := toNat_ofNat_of_lt_two_pow hlenFit hid
  have hfileN : (BitVec.ofNat 32 fileBytes.length).toNat = fileBytes.length :=
    toNat_ofNat_of_lt_two_pow hlenFit hfile
  rw [State.launchWith_eq]
  have hseq := sequenceOf_loaded words hcmdN
  refine ⟨rfl, rfl, hseq, sequenceOf_loaded idBytes hidN, sequenceOf_loaded fileBytes hfileN, rfl,
    ⟨⟨?_, ?_, ?_, ?_⟩, ⟨Nat.two_pow_pos _, ?_⟩, ?_⟩, ?_⟩
  · exact hidN.trans_lt hid
  · exact hfileN.trans_lt hfile
  · rintro n ⟨⟩
  · rintro n ⟨⟩
  · exact hcmdN.trans_lt hcmdLen
  · intro w hw
    exact hcmdWords w (hseq ▸ hw)
  · exact ⟨Memory.wf_writeAll rfl 0 words, Memory.wf_writeAll rfl 0 idBytes,
      Memory.wf_writeAll rfl 0 fileBytes, rfl⟩

end Sys2Proof.Machine

/-!
A step in RUNNING, said once as the claims about `STATE`, `CP` and `SEED` use it: it halts, it completes a command, or
it enters a fault (spec/47_control.md R250, spec/10_state.md R22).
-/

namespace Sys2Proof.Machine

/-- The ways a step leads from a RUNNING state to a next one. The state `u` is the one a body has left, with every
control register as in `s`. -/
inductive RunningStep (s : State) : State → Prop where
  /-- the word at `CP` is HALT -/
  | halted {w : CmdWord} (hw : s.cmdWords[s.cp.toNat]? = some w) (hdecode : decode w = .command .halt) :
      RunningStep s { s with state := .halted }
  /-- the command at `CP` completes -/
  | completed {w : CmdWord} {i : Instr} {u : State} (hw : s.cmdWords[s.cp.toNat]? = some w)
      (hdecode : decode w = .command i) (hdone : s.done = false) (hbody : bodyOf i s = .done u)
      (hkeeps : sameControl s u) : RunningStep s u.advance
  /-- a fault is entered, before a body begins or where a body raises it -/
  | faulted {c : Cause} {u : State} (hbody : u = s ∨ ∃ i, bodyOf i s = .raise c u) (hcause : c ≠ .none)
      (hkeeps : sameControl s u) : RunningStep s (u.takeFault c)

/-- A fault entered before a body begins. -/
theorem RunningStep.early {s : State} {c : Cause} (hc : c ≠ .none) : RunningStep s (s.takeFault c) :=
  .faulted (.inl rfl) hc (.rfl' s)

/-- Every step that answers a next state changes nothing outside RUNNING, or is a `RunningStep`. -/
theorem step_next_cases {s t : State} (h : step s = .next t) :
    (s.state ≠ .running ∧ t = s) ∨ (s.state = .running ∧ RunningStep s t) := by
  rcases step_next h with hstop | ⟨hr, ⟨-, rfl⟩ | ⟨w, hw, ⟨why, -, rfl⟩ | ⟨i, hdec, hexec⟩⟩⟩
  · exact .inl hstop
  · exact .inr ⟨hr, .early (by decide)⟩
  · exact .inr ⟨hr, .early (by decide)⟩
  · refine .inr ⟨hr, ?_⟩
    rcases exec_next hexec with ⟨rfl, rfl⟩ | ⟨-, ⟨-, rfl⟩ | ⟨hd, ⟨u, hu, rfl⟩ | ⟨c, u, hu, rfl⟩⟩⟩
    · exact .halted hw hdec
    · exact .early (by decide)
    · exact .completed hw hdec hd hu (bodyOf_keeps i s u hu)
    · obtain ⟨hkeeps, hc⟩ := bodyOf_raise_controlled i s c u hu
      exact .faulted (.inr ⟨i, hu⟩) hc hkeeps

/-! ### The host's moves -/

@[simp] theorem State.assertReset_state (s : State) : s.assertReset.state = .idle := rfl
@[simp] theorem State.assertReset_cp (s : State) : s.assertReset.cp = 0 := rfl

theorem State.pulseStart_of_idle {s : State} (h : s.state = .idle) : s.pulseStart = { s with state := .running } :=
  if_pos h

theorem State.pulseStart_of_ne_idle {s : State} (h : s.state ≠ .idle) : s.pulseStart = s := if_neg h

@[simp] theorem State.pulseStart_cp (s : State) : s.pulseStart.cp = s.cp := by
  unfold State.pulseStart; split <;> rfl

theorem HostMove.apply_state {s : State} {m : HostMove} (hreset : m ≠ .assertReset) (hstart : m ≠ .pulseStart) :
    (m.apply s).state = s.state := by
  cases m with
  | assertReset => exact absurd rfl hreset
  | pulseStart => exact absurd rfl hstart
  | loadCmd _ | loadId _ | loadFile _ | read _ => rfl

theorem HostMove.apply_cp {s : State} {m : HostMove} (hreset : m ≠ .assertReset) : (m.apply s).cp = s.cp := by
  cases m with
  | assertReset => exact absurd rfl hreset
  | pulseStart => exact s.pulseStart_cp
  | loadCmd _ | loadId _ | loadFile _ | read _ => rfl

/-! ### The claims about the control registers -/

/-- Settles O10: the step's part is `step_next_cases`, a completed command and a fault having left `STATE` and `CP` to
the end. -/
theorem stateTransitions : Obligations.StateTransitions := by
  unfold Obligations.StateTransitions
  refine ⟨⟨rfl, rfl, rfl, rfl⟩, rfl, State.assertReset_state, fun _ => State.pulseStart_of_idle,
    fun _ => State.pulseStart_of_ne_idle, fun _ _ => HostMove.apply_state, ?_⟩
  intro s t h
  rcases step_next_cases h with ⟨-, rfl⟩ | ⟨hr, hstep⟩
  · exact .inl rfl
  cases hstep with
  | halted hw hdecode => exact .inr (.inl ⟨hr, rfl, _, hw, hdecode⟩)
  | completed _ _ _ _ hkeeps =>
    obtain ⟨hstate, -⟩ := hkeeps
    exact .inl hstate
  | faulted _ hcause hkeeps =>
    obtain ⟨-, hcp, -⟩ := hkeeps
    exact .inr (.inr ⟨hr, by simp, by simpa using hcause, by simp [hcp]⟩)

theorem State.FaultRecord.of_not_faulted {s : State} (hstate : s.state ≠ .faulted) (hcause : s.cause = .none)
    (hfaultCp : s.faultCp = none) : s.FaultRecord := by
  simp [State.FaultRecord, hstate, hcause, hfaultCp]

/-- Fault entry leaves a record of the fault, whatever was recorded before (R276). -/
theorem State.takeFault_faultRecord (s : State) {c : Cause} (hc : c ≠ .none) : (s.takeFault c).FaultRecord := by
  simp [State.FaultRecord, hc]

/-- Settles O53: in RUNNING nothing is recorded yet, so the record after a step is empty or the one fault entry
writes. -/
theorem stepKeepsFaultRecord : Obligations.StepKeepsFaultRecord := by
  unfold Obligations.StepKeepsFaultRecord
  intro s t hrecord h
  rcases step_next_cases h with ⟨-, rfl⟩ | ⟨hr, hstep⟩
  · exact hrecord
  obtain ⟨hcauseNone, hcpNone⟩ : s.cause = .none ∧ s.faultCp = none := by
    simpa [State.FaultRecord, hr, eq_comm] using hrecord
  cases hstep with
  | halted => exact .of_not_faulted (by simp) hcauseNone hcpNone
  | completed _ _ _ _ hkeeps =>
    obtain ⟨hstate, -, hcause, hfaultCp, -⟩ := hkeeps
    exact .of_not_faulted (by simp [hstate, hr]) (hcause.trans hcauseNone) (hfaultCp.trans hcpNone)
  | faulted _ hcause => exact State.takeFault_faultRecord _ hcause

/-- Settles O11: a command completes only at an index below `CMD_LEN`, so `CP + 1` does not wrap. -/
theorem stepMovesCpByOneOrStops : Obligations.StepMovesCpByOneOrStops := by
  unfold Obligations.StepMovesCpByOneOrStops
  refine ⟨State.assertReset_cp, fun _ _ => HostMove.apply_cp, ?_, ?_⟩
  · intro s t hr h
    rw [step_stopped hr] at h
    cases h
    rfl
  · intro s t hr h
    obtain ⟨hne, -⟩ | ⟨-, hstep⟩ := step_next_cases h
    · exact absurd hr hne
    cases hstep with
    | halted => exact .inr ⟨.inl rfl, rfl⟩
    | completed hw _ _ _ hkeeps =>
      obtain ⟨hstate, hcp, -⟩ := hkeeps
      obtain ⟨hlt, -⟩ := cmdWords_getElem? hw
      refine .inl ⟨by simp [hstate, hr], ?_⟩
      rw [State.advance_cp, hcp]
      bv_omega
    | faulted _ _ hkeeps =>
      obtain ⟨-, hcp, -⟩ := hkeeps
      exact .inr ⟨.inr (by simp), by simp [hcp]⟩

/-- Settles O50: the launch configuration and the parameters are among what `sameControl` keeps. -/
theorem noStepWritesTheLaunch : Obligations.NoStepWritesTheLaunch := by
  unfold Obligations.NoStepWritesTheLaunch
  intro s t h
  rcases step_next_cases h with ⟨-, rfl⟩ | ⟨-, hstep⟩
  · exact ⟨rfl, rfl⟩
  cases hstep with
  | halted => exact ⟨rfl, rfl⟩
  | completed _ _ _ _ hkeeps =>
    obtain ⟨-, -, -, -, hlaunch, hcfg⟩ := hkeeps
    exact ⟨hlaunch, hcfg⟩
  | faulted _ _ hkeeps =>
    obtain ⟨-, -, -, -, hlaunch, hcfg⟩ := hkeeps
    exact ⟨by simpa using hlaunch, by simpa using hcfg⟩

end Sys2Proof.Machine

/-!
The Seed (spec/10_state.md R31): a body other than DEC.RUN's never replaces it, since the two that create it raise
SequenceFault where it exists.
-/

namespace Sys2Proof.Machine

/-- CRC.ID comes first in RUN, so RUN does nothing where the Seed exists (R252, R277). -/
theorem runBody_of_seed {s : State} (h : s.seed.isSome) : runBody s = .raise .sequenceFault s := by
  have hcrcId : crcIdBody s = .raise .sequenceFault s := by
    rcases crcIdBody_cases s with ⟨-, e⟩ | ⟨hs, -⟩ | ⟨hs, -⟩
    · exact e
    · simp [hs] at h
    · simp [hs] at h
  rw [runBody, hcrcId]
  rfl

/-- Every body but DEC.RUN's keeps a Seed, where it is done and where it raises a fault. -/
theorem bodyOf_preserves_seed {i : Instr} (hi : i ≠ .decRun) (v : Word) :
    Preserves (fun u => u.seed = some v) (bodyOf i) := by
  intro s hs
  have hne : s.seed ≠ none := by simp [hs]
  cases i with
  | halt => exact hs
  | run => exact .of_raise (runBody_of_seed (by simp [hs])) hs
  | crcInit => exact crcInitBody_ends hs
  | crcUpd b => exact crcUpdBody_ends b hs fun _ => hs
  | crcFin => exact crcFinBody_ends hs fun _ h => absurd h hne
  | crcId => exact crcIdBody_ends hs fun _ h => absurd h hne
  | rngSeed => exact rngSeedBody_ends hs fun _ _ _ => hs
  | rngNext => exact rngNextBody_ends hs fun _ _ _ => hs
  | kdfKey => exact kdfKeyBody_ends hs fun _ _ _ _ => hs
  | kdfIv => exact kdfIvBody_ends hs fun _ _ _ _ _ => hs
  | frmParse => exact frmParseBody_ends hs fun _ _ => hs
  | decRun => exact absurd rfl hi

/-- A DEC.RUN that is done has completed the decryption and discarded the Seed (R24, R200). -/
theorem decRunBody_done_discards {s u : State} (h : decRunBody s = .done u) : u.seed = none ∧ u.done = true := by
  rcases decRunBody_cases s with
    ⟨-, e⟩ | ⟨_, _, _, -, -, -, ⟨-, e⟩ | ⟨-, ⟨-, e⟩ | ⟨_, _, -, -, e⟩⟩⟩ <;> rw [e] at h <;> cases h
  exact ⟨rfl, rfl⟩

/-- A body that is done has kept the Seed, or has completed the decryption. -/
theorem bodyOf_done_seed {i : Instr} {s u : State} {v : Word} (hs : s.seed = some v) (h : bodyOf i s = .done u) :
    u.seed = some v ∨ (u.seed = none ∧ u.done = true) := by
  by_cases hi : i = .decRun
  · subst hi
    exact .inr (decRunBody_done_discards h)
  · exact .inl ((bodyOf_preserves_seed hi v s hs).of_eq_done h)

/-- A body that raises a fault has kept the Seed. -/
theorem bodyOf_raise_seed {i : Instr} {s u : State} {c : Cause} {v : Word} (hs : s.seed = some v)
    (h : bodyOf i s = .raise c u) : u.seed = some v := by
  by_cases hi : i = .decRun
  · subst hi
    obtain ⟨rfl, -⟩ := bodyOf_raise (by decide) s c u h
    exact hs
  · exact (bodyOf_preserves_seed hi v s hs).of_eq_raise h

/-- Settles O51, by the cases of a step: what a body leaves of the Seed is what the step leaves. -/
theorem seedIsImmutable : Obligations.SeedIsImmutable := by
  unfold Obligations.SeedIsImmutable
  intro s t v hs h
  rcases step_next_cases h with ⟨-, rfl⟩ | ⟨-, hstep⟩
  · exact .inl hs
  cases hstep with
  | halted => exact .inl hs
  | completed _ _ hdone hbody =>
    rcases bodyOf_done_seed hs hbody with hseed | ⟨hseed, hdone'⟩
    · exact .inl hseed
    · exact .inr ⟨hseed, hdone, hdone'⟩
  | faulted hbody =>
    left
    rw [State.takeFault_seed]
    rcases hbody with rfl | ⟨i, hraise⟩
    · exact hs
    · exact bodyOf_raise_seed hs hraise

end Sys2Proof.Machine


/-!
What the host sees: the fields of `STATUS` (spec/10_state.md R25), the status registers and `PT` by `STATE` (R26,
spec/70_reset_and_hazards.md R304), and the values after reset (R43, R301).
-/

namespace Sys2Proof.Machine

/-! ### `STATUS` -/

theorem getLsbD_statusBit (b : Bool) {k i : Nat} (hi : i < 32) :
    (statusBit b k).getLsbD i = (decide (i = k) && b) := by
  rcases Nat.lt_trichotomy i k with hlt | rfl | hgt
  · simp [statusBit, hlt, hlt.ne]
  · simp [statusBit, hi]
  · simp [statusBit, hgt.ne', Nat.sub_ne_zero_of_lt hgt]

/-- Every bit of `STATUS`: the fields do not overlap, and no field covers bits 3:2 and 31:17. -/
theorem State.getElem_status (s : State) {i : Nat} (hi : i < 32) :
    s.status[i] =
      (s.state.code.getLsbD i || (!decide (i < 4) && s.cause.code.getLsbD (i - 4))
        || (decide (i = 8) && s.crcValid) || (decide (i = 9) && s.seedValid) || (decide (i = 10) && s.rngValid)
        || (decide (i = 11) && s.rndValid) || (decide (i = 12) && s.keyValid) || (decide (i = 13) && s.ivValid)
        || (decide (i = 14) && s.ctValid) || (decide (i = 15) && s.ptValid) || (decide (i = 16) && s.done)) := by
  rw [← BitVec.getLsbD_eq_getElem]
  simp only [State.status, BitVec.getLsbD_or, BitVec.getLsbD_setWidth, BitVec.getLsbD_shiftLeft,
    getLsbD_statusBit _ hi, hi, Nat.lt_of_le_of_lt (Nat.sub_le i 4) hi, decide_true, Bool.true_and]

theorem State.status_resetWith (launch : Launch) (cfg : Config) : (State.resetWith launch cfg).status = 0 := by
  simp [State.status, State.resetWith, RunState.code, Cause.code, statusBit, State.crcValid, State.seedValid,
    State.rngValid, State.rndValid, State.keyValid, State.ivValid, State.ctValid, State.ptValid]

/-- Settles O58: each field is read off `State.getElem_status`, bit by bit. -/
theorem statusFields : Obligations.StatusFields := by
  unfold Obligations.StatusFields
  refine ⟨State.status_resetWith _ _, fun s => ⟨?state, ?low, ?cause, ?_, ?_, ?_, ?_, ?_, ?_, ?_, ?_, ?_, ?high⟩⟩
  case state | low | cause | high =>
    ext i hi
    interval_cases i <;> simp [State.getElem_status]
  all_goals simp [State.getElem_status]

/-! ### The host's reads -/

theorem State.readStatusReg_running {s : State} (h : s.state = .running) {r : StatusReg} (hr : r ≠ .status) :
    s.readStatusReg r = none := by
  simp [State.readStatusReg, HostRead.allowed, h, hr]

theorem State.readStatusReg_idle {s : State} (h : s.state = .idle) {r : StatusReg} (hstatus : r ≠ .status)
    (hcp : r ≠ .cp) : s.readStatusReg r = none := by
  simp [State.readStatusReg, HostRead.allowed, h, hstatus, hcp]

theorem State.readStatusReg_stopped {s : State} (h : s.state = .halted ∨ s.state = .faulted) (r : StatusReg) :
    s.readStatusReg r = s.statusRegValue r := by
  rcases h with h | h <;> simp [State.readStatusReg, HostRead.allowed, h]

theorem State.readStatusReg_status (s : State) : s.readStatusReg .status = some s.status := by
  cases h : s.state <;> simp [State.readStatusReg, HostRead.allowed, h, State.statusRegValue]

theorem State.readStatusReg_cp {s : State} (h : s.state ≠ .running) :
    s.readStatusReg .cp = some (s.cp.setWidth 32) := by
  cases hs : s.state with
  | running => exact absurd hs h
  | idle | halted | faulted => simp [State.readStatusReg, HostRead.allowed, hs, State.statusRegValue]

theorem State.plaintextIndex_eq_true_iff {s : State} {a : Nat} :
    s.plaintextIndex a = true ↔ ∃ n, s.ptLen = some n ∧ a < n.toNat := by
  cases h : s.ptLen <;> simp [State.plaintextIndex, h]

theorem State.readPt_eq_some_iff {s : State} {a : Nat} {b : Byte} :
    s.readPt a = some b ↔
      s.state = .halted ∧ (∃ n, s.ptLen = some n ∧ a < n.toNat) ∧ Memory.find s.pt a = some b := by
  simp [State.readPt, HostRead.allowed, ← State.plaintextIndex_eq_true_iff, and_assoc]

/-- A register that is readable when its valid bit is set reads as its value: the bit is the value's presence. -/
theorem eq_some_iff_isSome_and {α : Type} {r : Option α} {v : α} : r = some v ↔ r.isSome = true ∧ r = some v :=
  (and_iff_right_of_imp Option.isSome_of_eq_some).symm

/-- Settles O59, register by register: after the stop the host reads what `State.statusRegValue` says. -/
theorem statusRegistersReadWhenValid : Obligations.StatusRegistersReadWhenValid := by
  unfold Obligations.StatusRegistersReadWhenValid
  refine ⟨rfl, State.readStatusReg_status, fun _ _ hr h => State.readStatusReg_running h hr,
    fun _ => State.readStatusReg_cp, fun _ _ hstatus hcp h => State.readStatusReg_idle h hstatus hcp, ?_,
    fun _ _ _ => State.readPt_eq_some_iff⟩
  intro s hstop
  simp only [State.readStatusReg_stopped hstop]
  refine ⟨fun v hf hv => ?_, fun hf => if_neg hf, fun _ => eq_some_iff_isSome_and, fun _ => eq_some_iff_isSome_and,
    fun _ => eq_some_iff_isSome_and, fun _ => eq_some_iff_isSome_and⟩
  simp [State.statusRegValue, hf, hv]

/-! ### Reset -/

theorem State.resetWith_faultRecord (launch : Launch) (cfg : Config) : (State.resetWith launch cfg).FaultRecord :=
  .of_not_faulted RunState.noConfusion rfl rfl

/-- Right after power-on nothing is loaded, so every memory lists nothing. -/
theorem State.reset_memoriesCanonical : State.reset.MemoriesCanonical := ⟨rfl, rfl, rfl, rfl⟩

/-- Right after power-on no value exists, and every length, `CP` and the command stream are empty. -/
theorem State.reset_undecrypted : State.reset.Undecrypted where
  done_eq := rfl
  ptLen_eq := rfl
  pt_eq := rfl
  region := by rintro n ⟨⟩
  creation := by simp [State.CreationOrder, State.reset, State.resetWith, State.rngValid, State.rndValid,
    State.keyValid, State.ivValid]
  widths := by
    have hzero (k : Nat) : 0 < 2 ^ k := Nat.two_pow_pos k
    exact ⟨⟨hzero _, hzero _, by rintro n ⟨⟩, by rintro n ⟨⟩⟩, ⟨hzero _, hzero _⟩, by rintro w ⟨⟩⟩

/-- Settles O56: no fault is recorded, no memory lists anything, and no value exists. -/
theorem resetIsSound : Obligations.ResetIsSound :=
  ⟨State.resetWith_faultRecord _ _, State.reset_memoriesCanonical, State.reset_undecrypted.lifecycle⟩

theorem State.ptByte_resetWith (launch : Launch) (cfg : Config) (a : Nat) :
    (State.resetWith launch cfg).ptByte a = none := by
  simp [State.ptByte, State.resetWith, Memory.find]

/-- Settles O57: reset writes each register by `State.resetWith`, under the launch and the parameters it keeps. -/
theorem resetValues : Obligations.ResetValues := by
  unfold Obligations.ResetValues
  intro s
  exact ⟨rfl, rfl, rfl, rfl, ⟨rfl, rfl, rfl, rfl, rfl, rfl, rfl, rfl, rfl⟩, State.status_resetWith _ _,
    rfl, rfl, rfl, rfl, rfl, rfl, rfl, rfl, State.ptByte_resetWith _ _, rfl, rfl⟩

end Sys2Proof.Machine

/-!
The plaintext (spec/20_memory.md R64): a command leaves `PT`, `PT_LEN` and `DONE` as they are, or completes the
decryption and writes all three. Either way `PT` keeps its canonical form, and with it every memory does.
-/

namespace Sys2Proof.Machine

/-- `PT`, `PT_LEN` and `DONE` are as before, and so is what the model reads at an index that `PT` does not list. -/
def samePlaintext (s t : State) : Prop :=
  t.pt = s.pt ∧ t.ptEpoch = s.ptEpoch ∧ t.ptLen = s.ptLen ∧ t.done = s.done

theorem samePlaintext.rfl' (s : State) : samePlaintext s s := ⟨rfl, rfl, rfl, rfl⟩

/-- A decryption has completed: `PT` holds a written byte exactly below `PT_LEN` (R64, R200). -/
def State.PlaintextWritten (t : State) : Prop :=
  t.done = true ∧ Memory.wf ptUnlisted t.pt = true ∧
    ∃ n, t.ptLen = some n ∧ ∀ a, (a < n.toNat → (Memory.find t.pt a).isSome = true) ∧
      (n.toNat ≤ a → Memory.find t.pt a = none)

/-! ### What the bodies do to the plaintext -/

/-- A body that ends in anything, followed by another: the second begins in `P`, or the first raised in `R`. -/
theorem SubStep.Ends.andThen_cases {P R : State → Prop} {r : SubStep} (hr : r.Ends P R) (next : State → SubStep) :
    (∃ u, P u ∧ r.andThen next = next u) ∨ ∃ c u, R u ∧ r.andThen next = .raise c u := by
  cases r with
  | done u => exact .inl ⟨u, hr, rfl⟩
  | raise c u => exact .inr ⟨c, u, hr, rfl⟩
  | stuck f => exact hr.elim

/-- The bodies other than the two that decrypt keep the plaintext. -/
theorem bodyOf_preserves_plaintext {i : Instr} (hrun : i ≠ .run) (hdec : i ≠ .decRun) (s : State) :
    Preserves (samePlaintext s) (bodyOf i) := by
  intro t ht
  cases i with
  | run => exact absurd rfl hrun
  | decRun => exact absurd rfl hdec
  | halt => exact ht
  | crcInit => exact crcInitBody_ends ht
  | crcUpd b => exact crcUpdBody_ends b ht fun _ => ht
  | crcFin => exact crcFinBody_ends ht fun _ _ => ht
  | crcId => exact crcIdBody_ends ht fun _ _ => ht
  | rngSeed => exact rngSeedBody_ends ht fun _ _ _ => ht
  | rngNext => exact rngNextBody_ends ht fun _ _ _ => ht
  | kdfKey => exact kdfKeyBody_ends ht fun _ _ _ _ => ht
  | kdfIv => exact kdfIvBody_ends ht fun _ _ _ _ _ => ht
  | frmParse => exact frmParseBody_ends ht fun _ _ => ht

/-- RUN reaches the cipher stage with the plaintext as it was, or raises a fault before that (R252, R277). -/
theorem runBody_cases (s : State) :
    (∃ u, samePlaintext s u ∧ runBody s = decRunBody u) ∨ ∃ c u, samePlaintext s u ∧ runBody s = .raise c u := by
  have keeps {i : Instr} (hrun : i ≠ .run) (hdec : i ≠ .decRun) := bodyOf_preserves_plaintext hrun hdec s
  have hcrcId := keeps (i := .crcId) (by decide) (by decide) s (.rfl' s)
  exact ((((hcrcId.andThen (keeps (i := .rngSeed) (by decide) (by decide))).andThen
    (keeps (i := .kdfKey) (by decide) (by decide))).andThen
    (keeps (i := .kdfIv) (by decide) (by decide))).andThen
    (keeps (i := .frmParse) (by decide) (by decide))).andThen_cases decRunBody

/-- The plaintext of a region that `CT_LEN` counts is one that `PT_LEN` can count. -/
theorem decrypt_region_length_lt {cfg : Config} {file plain : List Byte} {n : Word} {k v : Block}
    (h : decrypt cfg (file.take n.toNat) k v = some plain) : plain.length < 2 ^ 32 := by
  have hn := n.isLt
  have htake : (file.take n.toNat).length ≤ n.toNat := by simp
  rcases decrypt_length h with ⟨-, rfl⟩ | hlt
  · simp
  · omega

/-- A DEC.RUN that is done has written a plaintext that `PT_LEN` counts. -/
theorem decRunBody_done_eq {s t : State} (h : decRunBody s = .done t) :
    ∃ plain pt, plain.length < 2 ^ 32 ∧ memWrite [] 0 plain = some pt ∧ t = s.completeDecryption plain pt := by
  rcases decRunBody_cases s with
    ⟨-, e⟩ | ⟨_, _, _, -, -, -, ⟨-, e⟩ | ⟨-, ⟨-, e⟩ | ⟨plain, pt, hdec, hpt, e⟩⟩⟩ <;> rw [e] at h <;> cases h
  exact ⟨plain, pt, decrypt_region_length_lt hdec, hpt, rfl⟩

theorem decRunBody_done_written {s t : State} (h : decRunBody s = .done t) : t.PlaintextWritten := by
  obtain ⟨plain, pt, hlen, hpt, rfl⟩ := decRunBody_done_eq h
  obtain ⟨pt', hpt', hwf, -, hfind⟩ := memWrite_empty plain hlen.le
  obtain rfl : pt' = pt := Option.some.inj (hpt'.symm.trans hpt)
  have hn : (BitVec.ofNat 32 plain.length).toNat = plain.length := Nat.mod_eq_of_lt hlen
  refine ⟨rfl, hwf, _, rfl, fun a => ?_⟩
  rw [hn, State.completeDecryption_pt, hfind]
  simp

/-- DEC.RUN or RUN that is done has written the plaintext. -/
theorem bodyOf_done_written {i : Instr} (hi : i = .decRun ∨ i = .run) {s t : State} (h : bodyOf i s = .done t) :
    t.PlaintextWritten := by
  rcases hi with rfl | rfl
  · exact decRunBody_done_written h
  · rcases runBody_cases s with ⟨u, -, e⟩ | ⟨c, u, -, e⟩ <;> rw [bodyOf, e] at h
    · exact decRunBody_done_written h
    · cases h

/-- Every body that is done has kept the plaintext or written it. -/
theorem bodyOf_done_plaintext {i : Instr} {s t : State} (h : bodyOf i s = .done t) :
    samePlaintext s t ∨ t.PlaintextWritten := by
  by_cases hi : i = .decRun ∨ i = .run
  · exact .inr (bodyOf_done_written hi h)
  · obtain ⟨hdec, hrun⟩ := not_or.1 hi
    exact .inl ((bodyOf_preserves_plaintext hrun hdec s s (.rfl' s)).of_eq_done h)

/-- Every body that raises a fault has kept the plaintext: RUN writes it in its last sub-step only. -/
theorem bodyOf_raise_plaintext {i : Instr} {s t : State} {c : Cause} (h : bodyOf i s = .raise c t) :
    samePlaintext s t := by
  by_cases hi : i = .run
  · subst hi
    rcases runBody_cases s with ⟨u, hu, e⟩ | ⟨c', u, hu, e⟩ <;> rw [bodyOf, e] at h
    · obtain ⟨rfl, -⟩ := bodyOf_raise (i := .decRun) (by decide) u c t h
      exact hu
    · cases h
      exact hu
  · obtain ⟨rfl, -⟩ := bodyOf_raise hi s c t h
    exact .rfl' t

/-! ### The canonical form -/

/-- The canonical form is kept where the launch configuration is and `PT`'s own is. -/
theorem State.MemoriesCanonical.of_launch_eq {s t : State} (h : s.MemoriesCanonical) (hlaunch : t.launch = s.launch)
    (hpt : Memory.wf ptUnlisted t.pt = true) : t.MemoriesCanonical := by
  obtain ⟨hcmd, hid, hfile, -⟩ := h
  rw [← hlaunch] at hcmd hid hfile
  exact ⟨hcmd, hid, hfile, hpt⟩

/-- Fault entry leaves `PT` as it is or empties it (R276). -/
theorem State.wf_takeFault_pt {s : State} (h : Memory.wf ptUnlisted s.pt = true) (c : Cause) :
    Memory.wf ptUnlisted (s.takeFault c).pt = true := by
  by_cases hc : c = .cryptoError
  · subst hc
    rfl
  · rwa [State.takeFault_other s hc]

/-- Settles O54: no step writes the host's memories, and `PT` is kept, emptied, or written in canonical form. -/
theorem stepKeepsMemoriesCanonical : Obligations.StepKeepsMemoriesCanonical := by
  unfold Obligations.StepKeepsMemoriesCanonical
  intro s t h hstep
  obtain ⟨hlaunch, -⟩ := noStepWritesTheLaunch s t hstep
  refine h.of_launch_eq hlaunch ?_
  obtain ⟨-, -, -, hpt⟩ := h
  rcases step_next_cases hstep with ⟨-, rfl⟩ | ⟨-, hrunning⟩
  · exact hpt
  cases hrunning with
  | halted => exact hpt
  | completed _ _ _ hbody =>
    rcases bodyOf_done_plaintext hbody with ⟨hsame, -⟩ | ⟨-, hwf, -⟩
    · exact hsame ▸ hpt
    · exact hwf
  | faulted hbody =>
    refine State.wf_takeFault_pt ?_ _
    rcases hbody with rfl | ⟨i, hraise⟩
    · exact hpt
    · obtain ⟨hsame, -⟩ := bodyOf_raise_plaintext hraise
      exact hsame ▸ hpt

/-! ### The frame of the two commands that decrypt -/

section
variable {s u : State}

/-- A state with the same launch configuration and parameters has the same inputs. -/
theorem sameInputs.of_launch_eq (hlaunch : u.launch = s.launch) (hcfg : u.cfg = s.cfg) : sameInputs s u := by
  simp [sameInputs, hlaunch, hcfg]

/-- Fault entry for a cause other than CryptoError keeps the plaintext (R276). -/
theorem samePlaintext.takeFault (h : samePlaintext s u) {c : Cause} (hc : c ≠ .cryptoError) :
    samePlaintext s (u.takeFault c) := by
  rw [State.takeFault_other u hc]
  exact h

theorem samePlaintext.samePt (h : samePlaintext s u) : samePt s u := by
  obtain ⟨hpt, hepoch, -⟩ := h
  intro a
  rw [State.ptByte, State.ptByte, hpt, hepoch]

end

/-- DEC.RUN discards neither the accumulator nor `CT_LEN` (R24, R200). -/
theorem exec_decRun_keeps {s t : State} (h : exec .decRun s = .next t) : t.crcAcc = s.crcAcc ∧ t.ctLen = s.ctLen := by
  rcases exec_next h with ⟨hhalt, -⟩ | ⟨-, ⟨-, rfl⟩ | ⟨-, ⟨u, hu, rfl⟩ | ⟨c, u, hu, rfl⟩⟩⟩
  · cases hhalt
  · simp
  · obtain ⟨plain, pt, -, -, rfl⟩ := decRunBody_done_eq hu
    exact ⟨rfl, rfl⟩
  · obtain ⟨rfl, -⟩ := bodyOf_raise (by decide) s c u hu
    simp

/-- A command other than HALT that answers a next state has completed, or has entered a fault in a state with the
control registers and the plaintext as before. -/
theorem exec_next_completed_or_faulted {i : Instr} (hi : i ≠ .halt) {s t : State} (h : exec i s = .next t) :
    (∃ u, sameControl s u ∧ bodyOf i s = .done u ∧ t = u.advance) ∨
      ∃ c u, sameControl s u ∧ samePlaintext s u ∧ t = u.takeFault c := by
  rcases exec_next h with ⟨hhalt, -⟩ | ⟨-, ⟨-, rfl⟩ | ⟨-, ⟨u, hu, rfl⟩ | ⟨c, u, hu, rfl⟩⟩⟩
  · exact absurd hhalt hi
  · exact .inr ⟨_, s, .rfl' s, .rfl' s, rfl⟩
  · exact .inl ⟨u, bodyOf_keeps i s u hu, hu, rfl⟩
  · obtain ⟨hkeeps, -⟩ := bodyOf_raise_controlled i s c u hu
    exact .inr ⟨c, u, hkeeps, bodyOf_raise_plaintext hu, rfl⟩

/-- Settles O49, by whether the command completes: then it has written the plaintext, and a fault before that leaves
the plaintext alone. -/
theorem decryptionFrame : Obligations.DecryptionFrame := by
  unfold Obligations.DecryptionFrame
  intro i s t hi hs h
  refine ⟨?decRun, ?_⟩
  case decRun =>
    rintro rfl
    exact exec_decRun_keeps h
  have hhalt : i ≠ .halt := by rcases hi with rfl | rfl <;> decide
  rcases exec_next_completed_or_faulted hhalt h with ⟨u, hkeeps, hbody, rfl⟩ | ⟨c, u, hkeeps, hplain, rfl⟩
  · obtain ⟨hstate, -, hcause, hfaultCp, hlaunch, hcfg⟩ := hkeeps
    obtain ⟨hdone, -, n, hn, hexact⟩ := bodyOf_done_written hi hbody
    exact ⟨.inl ⟨hstate, hcause, hfaultCp⟩, .of_launch_eq hlaunch hcfg, fun _ => ⟨n, hn, hdone, hexact⟩,
      fun hfaulted => absurd (hstate.symm.trans hfaulted) hs⟩
  · obtain ⟨-, hcp, -, -, hlaunch, hcfg⟩ := hkeeps
    refine ⟨.inr ⟨State.takeFault_state u c, by simp [hcp]⟩, .of_launch_eq (by simpa) (by simpa),
      fun hne => absurd (State.takeFault_state u c) hne, fun _ hc => ?_⟩
    have hsame := hplain.takeFault (by simpa using hc)
    have ⟨_, _, hptLen, hdone⟩ := hsame
    exact ⟨hsame.samePt, hptLen, hdone⟩

/-! ### The plaintext the host takes -/

/-- A memory that lists a sequence from an index on gives it as a run. -/
theorem Memory.run_eq_some {α : Type} {m : List (Nat × α)} {vs : List α} {a : Nat}
    (h : ∀ i < vs.length, Memory.find m (a + i) = vs[i]?) : Memory.run m a vs.length = some vs := by
  induction vs generalizing a with
  | nil => rfl
  | cons v vs ih =>
    have hhead : Memory.find m a = some v := h 0 (by simp)
    have htail : Memory.run m (a + 1) vs.length = some vs := ih fun i hi => by
      simpa [Nat.add_assoc, Nat.add_comm 1 i] using h (i + 1) (by simpa using hi)
    simp [Memory.run, hhead, htail]

/-- What the host takes after a completed decryption is the plaintext written. -/
theorem State.plaintext_completeDecryption {s : State} {plain : List Byte} {pt : ByteMemory}
    (hlen : plain.length < 2 ^ 32) (hpt : memWrite [] 0 plain = some pt) :
    State.plaintext { (s.completeDecryption plain pt).advance with state := .halted } = some plain := by
  obtain ⟨pt', hpt', -, -, hfind⟩ := memWrite_empty plain hlen.le
  obtain rfl : pt' = pt := Option.some.inj (hpt'.symm.trans hpt)
  have hn : (BitVec.ofNat 32 plain.length).toNat = plain.length := Nat.mod_eq_of_lt hlen
  change Memory.run pt' 0 (BitVec.ofNat 32 plain.length).toNat = some plain
  rw [hn]
  exact Memory.run_eq_some fun i _ => by rw [Nat.zero_add, hfind]

/-- Settles O35: DEC.RUN completes, since the region is in the file and decrypts, and HALT leaves `PT` as it is. -/
theorem haltAfterDecRunDeliversPlaintext : Obligations.HaltAfterDecRunDeliversPlaintext := by
  unfold Obligations.HaltAfterDecRunDeliversPlaintext
  intro s key iv n plain hs hdone hkey hiv hn hle hdec
  obtain ⟨pt, hpt, hbody⟩ := decRunBody_done hkey hiv hn hle hdec
  have hexec : exec .decRun s = .next (s.completeDecryption plain pt).advance := by
    rw [exec_eq_runCommand (by decide), runCommand_ready hdone, bodyOf, hbody]
    rfl
  refine ⟨{ (s.completeDecryption plain pt).advance with state := .halted }, ?_, rfl,
    State.plaintext_completeDecryption (decrypt_region_length_lt hdec) hpt⟩
  simp [execSeq, hexec, hs, exec_halt]

end Sys2Proof.Machine

/-!
The file (spec/20_memory.md R76): only FRM.PARSE, DEC.RUN and RUN read it, so any other body commutes with putting
another file in its place.
-/

namespace Sys2Proof.Machine

/-- The result of a body with another file in its state. -/
def SubStep.withFile (r : SubStep) (file : ByteMemory) (fileLen : Word) : SubStep :=
  match r with
  | .done s => .done (s.withFile file fileLen)
  | .raise c s => .raise c (s.withFile file fileLen)
  | .stuck f => .stuck f

section
variable (s : State) (file : ByteMemory) (fileLen : Word)

theorem State.takeFault_withFile (c : Cause) :
    (s.withFile file fileLen).takeFault c = (s.takeFault c).withFile file fileLen := by
  by_cases hc : c = .cryptoError
  · subst hc
    rfl
  · rw [State.takeFault_other _ hc, State.takeFault_other _ hc]
    rfl

theorem SubStep.finish_withFile (r : SubStep) :
    (r.withFile file fileLen).finish = mapNext (fun t => t.withFile file fileLen) r.finish := by
  cases r with
  | done t => rfl
  | raise c t => exact congrArg Host.Outcome.next (t.takeFault_withFile file fileLen c)
  | stuck f => rfl

variable {s file fileLen}

theorem requireValue_withFile {α : Type} {r : Option α} {body body' : α → SubStep}
    (h : ∀ v, body' v = (body v).withFile file fileLen) :
    requireValue r (s.withFile file fileLen) body' = (requireValue r s body).withFile file fileLen := by
  cases r with
  | none => rfl
  | some v => exact h v

theorem requireNone_withFile {α : Type} {r : Option α} {body body' : SubStep}
    (h : body' = body.withFile file fileLen) :
    requireNone r (s.withFile file fileLen) body' = (requireNone r s body).withFile file fileLen := by
  cases r with
  | none => exact h
  | some v => rfl

theorem withAccess_withFile {α : Type} {r : Option α} {body body' : α → SubStep}
    (h : ∀ v, body' v = (body v).withFile file fileLen) :
    withAccess r body' = (withAccess r body).withFile file fileLen := by
  cases r with
  | none => rfl
  | some v => exact h v

end

/-! ### Bodies and commands -/

/-- With another file in its state the body does the same. -/
def IgnoresFile (body : State → SubStep) : Prop :=
  ∀ s file fileLen, body (s.withFile file fileLen) = (body s).withFile file fileLen

theorem crcUpdBody_ignoresFile (b : Byte) : IgnoresFile (crcUpdBody b) := by
  intro s file fileLen
  exact requireValue_withFile fun _ => rfl

theorem crcFinBody_ignoresFile : IgnoresFile crcFinBody := by
  intro s file fileLen
  exact requireValue_withFile fun _ => requireNone_withFile rfl

/-- CRC.ID reads the identifier and nothing else that the host loads. -/
theorem crcIdBody_ignoresFile : IgnoresFile crcIdBody := by
  intro s file fileLen
  refine requireNone_withFile (withAccess_withFile fun bytes => ?_)
  cases h : s.cfg.idAsciiCheck && bytes.any nonAscii <;> simp [State.withFile, SubStep.withFile, h]

theorem rngSeedBody_ignoresFile : IgnoresFile rngSeedBody := by
  intro s file fileLen
  exact requireValue_withFile fun _ => requireNone_withFile rfl

theorem rngNextBody_ignoresFile : IgnoresFile rngNextBody := by
  intro s file fileLen
  exact requireValue_withFile fun _ => rfl

/-- The derivation draws from the generator's words and the table alone. -/
theorem kdfKeyBody_ignoresFile : IgnoresFile kdfKeyBody := by
  intro s file fileLen
  refine requireValue_withFile fun w => requireNone_withFile ?_
  cases h : deriveSequence s.cfg.kmtRom w <;> simp [State.withFile, SubStep.withFile, h]

theorem kdfIvBody_ignoresFile : IgnoresFile kdfIvBody := by
  intro s file fileLen
  refine requireValue_withFile fun w => requireValue_withFile fun _ => requireNone_withFile ?_
  cases h : deriveSequence s.cfg.kmtRom w <;> simp [State.withFile, SubStep.withFile, h]

/-- Every body but those that reach the parser or the cipher stage ignores the file. -/
theorem bodyOf_ignoresFile {i : Instr} (hparse : i ≠ .frmParse) (hdec : i ≠ .decRun) (hrun : i ≠ .run) :
    IgnoresFile (bodyOf i) := by
  cases i with
  | frmParse => exact absurd rfl hparse
  | decRun => exact absurd rfl hdec
  | run => exact absurd rfl hrun
  | halt => exact fun _ _ _ => rfl
  | crcInit => exact fun _ _ _ => rfl
  | crcUpd b => exact crcUpdBody_ignoresFile b
  | crcFin => exact crcFinBody_ignoresFile
  | crcId => exact crcIdBody_ignoresFile
  | rngSeed => exact rngSeedBody_ignoresFile
  | rngNext => exact rngNextBody_ignoresFile
  | kdfKey => exact kdfKeyBody_ignoresFile
  | kdfIv => exact kdfIvBody_ignoresFile

/-- A body that ignores the file makes a command that does: the single-shot check reads `DONE` only. -/
theorem IgnoresFile.runCommand {body : State → SubStep} (h : IgnoresFile body) (s : State) (file : ByteMemory)
    (fileLen : Word) :
    runCommand (s.withFile file fileLen) body = mapNext (fun t => t.withFile file fileLen) (runCommand s body) := by
  cases hd : s.done with
  | true =>
    rw [runCommand_done hd, runCommand_done (s := s.withFile file fileLen) hd, State.takeFault_withFile]
    rfl
  | false =>
    rw [runCommand_ready hd, runCommand_ready (s := s.withFile file fileLen) hd, h s file fileLen,
      SubStep.finish_withFile]

/-- Settles O52: HALT writes `STATE` alone, and any other command of the statement is a body that ignores the file. -/
theorem onlyParserAndCipherReadFile : Obligations.OnlyParserAndCipherReadFile := by
  unfold Obligations.OnlyParserAndCipherReadFile
  intro i s file fileLen hparse hdec hrun
  by_cases hi : i = .halt
  · subst hi
    rfl
  · rw [exec_eq_runCommand hi, exec_eq_runCommand hi]
    exact (bodyOf_ignoresFile hparse hdec hrun).runCommand s file fileLen

end Sys2Proof.Machine

/-!
The encoding (spec/30_encoding.md R90 to R94): on the fields of a word, decoding to a command means that the fields are
that command's, and the patterns of the opcode table fit exactly the encodings.
-/

namespace Sys2Proof

/-! ### Decoding the fields -/

/-- Each format-N row pairs a command with its opcode, and that command has no operand. -/
theorem formatNTable_rows : ∀ r ∈ formatNTable, opcodeOf r.2 = r.1 ∧ immOf r.2 = 0 := by
  decide

/-- An opcode the table finds is that of the command found, which has no operand. -/
theorem formatNTable_lookup {op : Byte} {i : Instr} (h : formatNTable.lookup op = some i) :
    opcodeOf i = op ∧ immOf i = 0 := by
  obtain ⟨before, after, htable, -⟩ := List.lookup_eq_some_iff.mp h
  exact formatNTable_rows (op, i) (by simp [htable])

/-- The fields of a command decode to it: no field but the operand of CRC.UPD tells two commands apart. -/
theorem decodeFields_encoding (i : Instr) : decodeFields ⟨opcodeOf i, immOf i⟩ = .command i := by
  cases i <;> rfl

/-- Fields that decode to a command are the command's: a format-N row is taken only with `imm8` = 0x00. -/
theorem decodeFields_command {f : CmdFields} {i : Instr} (h : decodeFields f = .command i) :
    f = ⟨opcodeOf i, immOf i⟩ := by
  obtain ⟨op, imm⟩ := f
  simp only [decodeFields] at h
  split at h
  · next hop =>
    cases h
    exact congrArg (CmdFields.mk · imm) hop
  · split at h
    · next j hlookup =>
      obtain ⟨hop, hzero⟩ := formatNTable_lookup hlookup
      split at h
      · next himm =>
        cases h
        rw [hop, hzero, himm]
      · cases h
    · cases h

/-! ### Decoding a word -/

/-- The decoder inverts the encoder and nothing else decodes to a command. -/
theorem decode_eq_command_iff {w : CmdWord} {i : Instr} : decode w = .command i ↔ encode i = w := by
  constructor
  · intro h
    rw [encode, ← decodeFields_command h, word_fieldsOf]
  · rintro rfl
    rw [decode, encode, fieldsOf_word, decodeFields_encoding]

/-- A word is illegal when it decodes to no command. -/
theorem decode_illegal_iff {w : CmdWord} : (∃ why, decode w = .illegal why) ↔ ∀ i, decode w ≠ .command i := by
  cases decode w <;> simp

/-! ### The patterns of the opcode table -/

/-- The word of a command has the pattern of its row. -/
theorem fitsRow_encode (i : Instr) : fitsRow i (encode i) = true := by
  cases i with
  | crcUpd imm8 => exact (Laws.EncodeFits.crcUpd imm8).1
  | _ => decide

/-- A word with the pattern of CRC.UPD has its opcode, since the mask keeps bits 15:8. -/
theorem opcode_of_fitsRow_crcUpd {w : CmdWord} {b : Byte} (h : fitsRow (.crcUpd b) w = true) :
    (fieldsOf w).opcode = formatIOpcode := by
  have hmask : w &&& 0xFF00 = 0x1100 := beq_iff_eq.mp h
  calc (fieldsOf w).opcode = (fieldsOf w).opcode &&& BitVec.allOnes 8 := BitVec.and_allOnes.symm
    _ = (w &&& 0xFF00).extractLsb' 8 8 := by rw [BitVec.extractLsb'_and]; rfl
    _ = formatIOpcode := by rw [hmask]; rfl

/-- The row of a format-N command matches its word at every bit. -/
theorem rowOf_formatN {i : Instr} (hi : ∀ b, i ≠ .crcUpd b) : rowOf i = (encode i, BitVec.allOnes 16) := by
  cases i with
  | crcUpd b => exact absurd rfl (hi b)
  | _ => rfl

/-- A word with the pattern of a row is the word of a command; for CRC.UPD the row leaves the operand open. -/
theorem exists_encode_of_fitsRow {w : CmdWord} {i : Instr} (h : fitsRow i w = true) : ∃ j, encode j = w := by
  by_cases hi : ∃ b, i = .crcUpd b
  · obtain ⟨b, rfl⟩ := hi
    refine ⟨.crcUpd (fieldsOf w).imm8, ?_⟩
    calc encode (.crcUpd (fieldsOf w).imm8) = CmdFields.word ⟨formatIOpcode, (fieldsOf w).imm8⟩ := rfl
      _ = (fieldsOf w).word := by rw [← opcode_of_fitsRow_crcUpd h]
      _ = w := word_fieldsOf w
  · rw [fitsRow, rowOf_formatN (not_exists.mp hi), BitVec.and_allOnes, beq_iff_eq] at h
    exact ⟨i, h.symm⟩

/-! ### The claims about the encoding -/

/-- Settles O1: the fields of an encoding are the command's, and those decode to it. -/
theorem decodeOfEncodeIsTheCommand : Obligations.DecodeOfEncodeIsTheCommand :=
  fun _ => decode_eq_command_iff.mpr rfl

/-- Settles O2: the fields that decode to a command join to its word. -/
theorem encodeOfDecodeIsTheWord : Obligations.EncodeOfDecodeIsTheWord :=
  fun _ _ => decode_eq_command_iff.mp

/-- Settles O3: the words that fit a row are the encodings, and those are the words that decode to a command. -/
theorem decoderIsTheOpcodeTable : Obligations.DecoderIsTheOpcodeTable := by
  unfold Obligations.DecoderIsTheOpcodeTable
  refine ⟨fun w i h => ?_, fun w => decode_illegal_iff.trans ⟨fun hno i => ?_, fun hno i h => ?_⟩⟩
  · exact decode_eq_command_iff.mp h ▸ fitsRow_encode i
  · rw [Bool.eq_false_iff]
    intro hfits
    obtain ⟨j, hj⟩ := exists_encode_of_fitsRow hfits
    exact hno j (decode_eq_command_iff.mpr hj)
  · exact Bool.false_ne_true ((hno i).symm.trans (decode_eq_command_iff.mp h ▸ fitsRow_encode i))

/-- Settles O4: sixteen fixed words. -/
theorem decodeOfTableWords : Obligations.DecodeOfTableWords := by
  unfold Obligations.DecodeOfTableWords
  decide

end Sys2Proof

/-!
Commands other than HALT and the two that decrypt: a command is run by running its body, and what such a command
leaves alone wherever it ends (spec/47_control.md R250, spec/60_exceptions.md R276).
-/

namespace Sys2Proof.Machine

section
variable {i : Instr} {s t : State}

/-- A body that is done is the command completing. -/
theorem exec_of_body_done (hhalt : i ≠ .halt) (hdone : s.done = false) (hbody : bodyOf i s = .done t) :
    exec i s = .next t.advance := by
  rw [exec_eq_runCommand hhalt, runCommand_ready hdone, hbody]
  rfl

/-- A body that raises a fault other than CryptoError is the command entering it. -/
theorem exec_of_body_raise {c : Cause} (hhalt : i ≠ .halt) (hdone : s.done = false) (hc : c ≠ .cryptoError)
    (hbody : bodyOf i s = .raise c t) : exec i s = .next (t.faulting c) := by
  rw [exec_eq_runCommand hhalt, runCommand_ready hdone, hbody, SubStep.finish, takeFault_eq_faulting t hc]

/-- A command that does not decrypt completes, or enters a fault other than CryptoError in the state it began in. -/
theorem exec_next_done_or_takeFault (hhalt : i ≠ .halt) (hrun : i ≠ .run) (hdec : i ≠ .decRun)
    (h : exec i s = .next t) :
    (∃ u, bodyOf i s = .done u ∧ t = u.advance) ∨ ∃ c, c ≠ .cryptoError ∧ t = s.takeFault c := by
  rcases exec_next h with ⟨hi, -⟩ | ⟨-, ⟨-, rfl⟩ | ⟨-, hdone | ⟨c, u, hu, rfl⟩⟩⟩
  · exact absurd hi hhalt
  · exact .inr ⟨_, by decide, rfl⟩
  · exact .inl hdone
  · obtain ⟨rfl, -⟩ := bodyOf_raise hrun s c u hu
    refine .inr ⟨c, ?_, rfl⟩
    rintro rfl
    exact bodyOf_neverCrypto hrun hdec u u hu

/-- The frame of every command that does not decrypt: the control registers but for a fault, the plaintext, and
what the host loaded. -/
theorem exec_frame (hhalt : i ≠ .halt) (hrun : i ≠ .run) (hdec : i ≠ .decRun) (h : exec i s = .next t) :
    sameOrFaulted s t ∧ samePlaintext s t ∧ sameInputs s t := by
  rcases exec_next_done_or_takeFault hhalt hrun hdec h with ⟨u, hu, rfl⟩ | ⟨c, hc, rfl⟩
  · obtain ⟨hstate, -, hcause, hfaultCp, hlaunch, hcfg⟩ := bodyOf_keeps i s u hu
    have hplain := (bodyOf_preserves_plaintext hrun hdec s s (.rfl' s)).of_eq_done hu
    exact ⟨.inl ⟨hstate, hcause, hfaultCp⟩, hplain, .of_launch_eq hlaunch hcfg⟩
  · exact ⟨.inr (by simp), (samePlaintext.rfl' s).takeFault hc, .of_launch_eq (by simp) (by simp)⟩

end

end Sys2Proof.Machine

/-!
The checksum function (spec/41_crc.md R120, R121): one iteration is linear over XOR and takes bits that lie above
the low end down by one, so eight of them shift the upper 24 bits down and look up the low eight.
-/

namespace Sys2Proof.Machine

theorem crcShift_xor (x y : Word) : crcShift (x ^^^ y) = crcShift x ^^^ crcShift y := by
  have hcancel : x >>> 1 ^^^ y >>> 1 = (x >>> 1 ^^^ crcPoly) ^^^ (y >>> 1 ^^^ crcPoly) := by
    rw [BitVec.xor_comm (y >>> 1), BitVec.xor_assoc, ← BitVec.xor_assoc crcPoly, BitVec.xor_self, BitVec.zero_xor]
  simp only [crcShift, BitVec.getLsbD_xor, BitVec.ushiftRight_xor_distrib]
  cases x.getLsbD 0 <;> cases y.getLsbD 0
  · rfl
  · exact BitVec.xor_assoc ..
  · change x >>> 1 ^^^ y >>> 1 ^^^ crcPoly = x >>> 1 ^^^ crcPoly ^^^ y >>> 1
    ac_rfl
  · exact hcancel

theorem crcShift_iterate_xor (n : Nat) (x y : Word) :
    crcShift^[n] (x ^^^ y) = crcShift^[n] x ^^^ crcShift^[n] y := by
  induction n generalizing x y with
  | zero => rfl
  | succ n ih => simp only [Function.iterate_succ_apply, crcShift_xor, ih]

/-- Where the low `n + 1` bits are clear an iteration is a shift by one. -/
theorem crcShift_shiftLeft_succ (v : Word) (n : Nat) :
    crcShift (v >>> (n + 1) <<< (n + 1)) = v >>> (n + 1) <<< n := by
  rw [crcShift, if_neg (by simp)]
  ext k hk
  simp only [BitVec.getElem_ushiftRight, BitVec.getLsbD_shiftLeft, BitVec.getElem_shiftLeft,
    BitVec.getLsbD_ushiftRight]
  rcases Nat.lt_or_ge k n with hkn | hkn
  · simp [hkn, show 1 + k < n + 1 by omega]
  · have hbit : n + 1 + (1 + k - (n + 1)) = n + 1 + (k - n) := by omega
    rcases Nat.lt_or_ge (1 + k) 32 with htop | htop
    · simp [htop, hbit, hkn.not_gt, show ¬ 1 + k ≤ n by omega]
    · simp [htop.not_gt, BitVec.getLsbD_of_ge v (n + 1 + (k - n)) (by omega)]

/-- Where the low `n` bits are clear `n` iterations are a shift by `n`. -/
theorem crcShift_iterate_shiftLeft (n : Nat) (v : Word) : crcShift^[n] (v >>> n <<< n) = v >>> n := by
  induction n generalizing v with
  | zero => simp
  | succ n ih =>
    rw [Function.iterate_succ_apply, crcShift_shiftLeft_succ, Nat.add_comm n 1, BitVec.shiftRight_add, ih]

/-- An accumulator with a byte added to its low end is the table's index below the upper 24 bits. -/
theorem xor_byte_eq_index_xor_upper (acc : Word) (b : Byte) :
    acc ^^^ b.setWidth 32 = ((acc &&& 0xFF).setWidth 8 ^^^ b).setWidth 32 ^^^ (acc >>> 8 <<< 8) := by
  have hlow : (acc &&& 0xFF).setWidth 8 = acc.setWidth 8 := by
    rw [BitVec.setWidth_and]
    exact BitVec.and_allOnes
  rw [hlow]
  ext k hk
  rcases Nat.lt_or_ge k 8 with hk8 | hk8
  · simp [hk8, BitVec.getLsbD_eq_getElem hk]
  · simp [hk8.not_gt, Nat.add_sub_cancel' hk8, BitVec.getLsbD_eq_getElem hk, Bool.xor_comm]

/-- R121's table step is eight of R120's iterations on the accumulator with the byte added to its low end. -/
theorem crcStep_eq_iterate (acc : Word) (b : Byte) : crcStep acc b = crcShift^[8] (acc ^^^ b.setWidth 32) := by
  rw [xor_byte_eq_index_xor_upper, crcShift_iterate_xor, crcShift_iterate_shiftLeft]
  rfl

/-- Settles O18: the iteration written out is the model's `crcShift`, and XOR with all ones is the complement. -/
theorem crcTableStepIsBitSerial : Obligations.CrcTableStepIsBitSerial := by
  unfold Obligations.CrcTableStepIsBitSerial
  refine ⟨crcStep_eq_iterate, fun bytes => ?_⟩
  have hstep : crcStep = fun acc b => crcShift^[8] (acc ^^^ b.setWidth 32) := funext₂ crcStep_eq_iterate
  rw [checksum, hstep, ← BitVec.xor_allOnes]
  rfl

end Sys2Proof.Machine

/-!
The checksum commands (spec/41_crc.md R122 to R126): their words, where they complete and where they fault, what a
sequence of them computes, and what they leave unchanged.
-/

namespace Sys2Proof.Machine

theorem encode_crcUpd (imm8 : Byte) : encode (.crcUpd imm8) = 0x1100 + imm8.setWidth 16 := by
  apply BitVec.eq_of_toNat_eq
  have himm := imm8.isLt
  have hword : (encode (.crcUpd imm8)).toNat = 0x11 <<< 8 ||| imm8.toNat := BitVec.toNat_append ..
  have hopcode : (0x1100 : CmdWord).toNat = 0x11 <<< 8 := rfl
  rw [hword, ← Nat.shiftLeft_add_eq_or_of_lt himm, BitVec.toNat_add, BitVec.toNat_setWidth, hopcode]
  omega

section
variable {s : State} {acc : Word}

/-! ### Completing -/

theorem exec_crcInit (hdone : s.done = false) :
    exec .crcInit s = .next { s with crcAcc := some crcInitValue, cp := s.cp + 1 } :=
  exec_of_body_done (i := .crcInit) (by decide) hdone rfl

theorem exec_crcUpd (b : Byte) (hdone : s.done = false) (hacc : s.crcAcc = some acc) :
    exec (.crcUpd b) s = .next { s with crcAcc := some (crcStep acc b), cp := s.cp + 1 } := by
  rcases crcUpdBody_cases b s with ⟨hnone, -⟩ | ⟨_, hacc', e⟩
  · simp [hacc] at hnone
  · cases hacc.symm.trans hacc'
    exact exec_of_body_done (i := .crcUpd b) (by simp) hdone e

theorem exec_crcFin (hdone : s.done = false) (hacc : s.crcAcc = some acc) (hseed : s.seed = none) :
    exec .crcFin s = .next { s with seed := some (~~~ acc), crcAcc := none, cp := s.cp + 1 } := by
  rcases crcFinBody_cases s with ⟨hcond, -⟩ | ⟨_, hacc', -, e⟩
  · simp [hacc, hseed] at hcond
  · cases hacc.symm.trans hacc'
    exact exec_of_body_done (i := .crcFin) (by decide) hdone e

/-! ### The commands in sequence -/

theorem execSeq_cons {i : Instr} {is : List Instr} {t : State} (h : exec i s = .next t) (ht : t.state ≠ .faulted) :
    execSeq (i :: is) s = execSeq is t := by
  simp [execSeq, h, ht]

/-- CRC.UPD of each of the bytes folds the table step over them. -/
theorem execSeq_crcUpds (bytes : List Byte) (is : List Instr) (hstate : s.state ≠ .faulted)
    (hdone : s.done = false) (hacc : s.crcAcc = some acc) :
    execSeq (bytes.map .crcUpd ++ is) s =
      execSeq is { s with
        crcAcc := some (bytes.foldl crcStep acc), cp := s.cp + BitVec.ofNat 16 bytes.length } := by
  induction bytes generalizing s acc with
  | nil => simp [← hacc]
  | cons b bytes ih =>
    have hcp : s.cp + 1 + BitVec.ofNat 16 bytes.length = s.cp + BitVec.ofNat 16 (bytes.length + 1) := by
      rw [BitVec.add_assoc, BitVec.add_comm 1, BitVec.ofNat_add]; rfl
    calc execSeq ((b :: bytes).map .crcUpd ++ is) s
      _ = execSeq (bytes.map .crcUpd ++ is) { s with crcAcc := some (crcStep acc b), cp := s.cp + 1 } :=
        execSeq_cons (exec_crcUpd b hdone hacc) hstate
      _ = execSeq is { s with
            crcAcc := some (bytes.foldl crcStep (crcStep acc b))
            cp := s.cp + 1 + BitVec.ofNat 16 bytes.length } := ih hstate hdone rfl
      _ = _ := by rw [hcp]; rfl

end

/-- Settles O14. -/
theorem crcInitStartsChecksum : Obligations.CrcInitStartsChecksum := by
  unfold Obligations.CrcInitStartsChecksum
  exact ⟨by decide, fun _ => exec_crcInit⟩

/-- Settles O15: one fault, and the table step at every byte. -/
theorem crcUpdFeedsByte : Obligations.CrcUpdFeedsByte := by
  unfold Obligations.CrcUpdFeedsByte
  refine ⟨encode_crcUpd, fun s imm8 hdone => ⟨fun hinvalid => ?_, fun acc => exec_crcUpd imm8 hdone⟩⟩
  rcases crcUpdBody_cases imm8 s with ⟨-, e⟩ | ⟨acc, hacc, -⟩
  · exact exec_of_body_raise (by simp) hdone (by decide) e
  · simp [State.crcValid, hacc] at hinvalid

/-- Settles O16: the complement is the XOR with all ones. -/
theorem crcFinCreatesSeed : Obligations.CrcFinCreatesSeed := by
  unfold Obligations.CrcFinCreatesSeed
  refine ⟨by decide, fun s hdone => ⟨fun hinvalid => ?_, fun acc hacc hseed => ?_⟩⟩
  · rcases crcFinBody_cases s with ⟨-, e⟩ | ⟨acc, hacc, hseed, -⟩
    · exact exec_of_body_raise (by decide) hdone (by decide) e
    · simp [State.crcValid, State.seedValid, hacc, hseed] at hinvalid
  · rw [exec_crcFin hdone hacc hseed, ← BitVec.xor_allOnes]
    rfl

/-- The scan of R126 finds a byte exactly where the check is on and the identifier has one above 0x7F. -/
theorem idScan_eq_true_iff {s : State} :
    (s.cfg.idAsciiCheck && s.idBytes.any nonAscii) = true ↔
      s.cfg.idAsciiCheck = true ∧ ∃ b ∈ s.idBytes, 0x7F < b := by
  simp [nonAscii]

/-- Settles O17, by the three outcomes of the body in R126's order. -/
theorem crcIdChecksumsIdentifier : Obligations.CrcIdChecksumsIdentifier := by
  unfold Obligations.CrcIdChecksumsIdentifier
  refine ⟨by decide, fun s hdone => ?_⟩
  rcases crcIdBody_cases s with ⟨hseed, e⟩ | ⟨hseed, hscan, e⟩ | ⟨hseed, hscan, e⟩
  · have hne : s.seed ≠ none := Option.isSome_iff_ne_none.1 hseed
    exact ⟨fun _ => exec_of_body_raise (by decide) hdone (by decide) e, fun h => absurd h hne, fun h => absurd h hne⟩
  · obtain ⟨hcheck, b, hb, hlt⟩ := idScan_eq_true_iff.1 hscan
    exact ⟨by simp [State.seedValid, hseed], fun _ _ _ => exec_of_body_raise (by decide) hdone (by decide) e,
      fun _ h => absurd hlt (h hcheck b hb)⟩
  · exact ⟨by simp [State.seedValid, hseed],
      fun _ hcheck hb => absurd (idScan_eq_true_iff.2 ⟨hcheck, hb⟩) (by simp [hscan]),
      fun _ _ => exec_of_body_done (i := .crcId) (by decide) hdone e⟩

/-- Settles O19: CRC.INIT begins the fold, each CRC.UPD continues it, CRC.FIN takes its complement. -/
theorem byteCommandsComputeChecksum : Obligations.ByteCommandsComputeChecksum := by
  unfold Obligations.ByteCommandsComputeChecksum
  intro s bytes hstate hdone hseed
  have hcp : s.cp + 1 + BitVec.ofNat 16 bytes.length + 1 = s.cp + BitVec.ofNat 16 (bytes.length + 2) := by
    rw [BitVec.ofNat_add]
    bv_omega
  calc execSeq (.crcInit :: (bytes.map Instr.crcUpd ++ [.crcFin])) s
    _ = execSeq (bytes.map Instr.crcUpd ++ [.crcFin]) { s with crcAcc := some crcInitValue, cp := s.cp + 1 } :=
      execSeq_cons (exec_crcInit hdone) hstate
    _ = execSeq [.crcFin] { s with
          crcAcc := some (bytes.foldl crcStep crcInitValue), cp := s.cp + 1 + BitVec.ofNat 16 bytes.length } :=
      execSeq_crcUpds bytes _ hstate hdone rfl
    _ = .next { s with
          seed := some (checksum bytes), crcAcc := none, cp := s.cp + 1 + BitVec.ofNat 16 bytes.length + 1 } :=
      execSeq_cons (exec_crcFin hdone rfl hseed) hstate
    _ = _ := by rw [hcp]

/-- What a checksum command `i` keeps of the values the run makes: every one made after the Seed, and the Seed itself
unless `i` is one of the two that create it. -/
def keepsValues (i : Instr) (s t : State) : Prop :=
  (i ≠ .crcFin → i ≠ .crcId → t.seed = s.seed) ∧
    t.w = s.w ∧ t.rnd = s.rnd ∧ t.key = s.key ∧ t.iv = s.iv ∧ t.ctLen = s.ctLen

theorem checksumBody_keepsValues {i : Instr} (hi : i = .crcInit ∨ (∃ b, i = .crcUpd b) ∨ i = .crcFin ∨ i = .crcId)
    (s : State) : (bodyOf i s).Ends (keepsValues i s) fun _ => True := by
  rcases hi with rfl | ⟨b, rfl⟩ | rfl | rfl
  · exact crcInitBody_ends (by simp [keepsValues])
  · exact crcUpdBody_ends b trivial (by simp [keepsValues])
  · exact crcFinBody_ends trivial (by simp [keepsValues])
  · exact crcIdBody_ends trivial (by simp [keepsValues])

/-- Settles O45: the body's own frame, and the one every command that does not decrypt has. -/
theorem checksumFrame : Obligations.ChecksumFrame := by
  unfold Obligations.ChecksumFrame
  intro i s t hi h
  have hother : i ≠ .halt ∧ i ≠ .run ∧ i ≠ .decRun := by
    rcases hi with rfl | ⟨b, rfl⟩ | rfl | rfl <;> simp
  obtain ⟨hhalt, hrun, hdec⟩ := hother
  obtain ⟨hfaulted, hplain, hinputs⟩ := exec_frame hhalt hrun hdec h
  have hvalues : keepsValues i s t := by
    rcases exec_next_done_or_takeFault hhalt hrun hdec h with ⟨u, hu, rfl⟩ | ⟨c, -, rfl⟩
    · have hbody : keepsValues i s u := (checksumBody_keepsValues hi s).of_eq_done hu
      exact hbody
    · simp [keepsValues]
  obtain ⟨hseed, hw, hrnd, hkey, hiv, hctLen⟩ := hvalues
  have ⟨_, _, hptLen, hdone⟩ := hplain
  exact ⟨hseed, hw, hrnd, hkey, hiv, hctLen, hptLen, hdone, hfaulted, hplain.samePt, hinputs⟩

end Sys2Proof.Machine

/-!
The generator's functions (spec/42_rng.md R141, R143, R145): the seeding recurrence in numbers, what a draw keeps of
the words, and that a draw loses nothing.
-/

namespace Sys2Proof.Machine

/-! ### Seeding -/

theorem toNat_rngSeedStep (s i : Word) :
    (rngSeedStep s i).toNat = (0x6C078965 * (s ^^^ (s >>> 30)).toNat + (i.toNat + 1)) % 2 ^ 32 := by
  have hmult : rngMult.toNat = 0x6C078965 := rfl
  have hone : (1 : Word).toNat = 1 := rfl
  rw [rngSeedStep, BitVec.add_assoc, BitVec.toNat_add, BitVec.toNat_mul, BitVec.toNat_add, hmult, hone, ← Nat.add_mod]

/-- Settles O20: the words are four iterations in a chain. -/
theorem rngSeedRecurrence : Obligations.RngSeedRecurrence := by
  unfold Obligations.RngSeedRecurrence
  intro seed
  exact ⟨toNat_rngSeedStep seed 0, toNat_rngSeedStep _ 1, toNat_rngSeedStep _ 2, toNat_rngSeedStep _ 3⟩

/-! ### Draws -/

/-- The last of `n + 1` draws comes after the first `n`. -/
theorem rngAdvanceBy_succ (n : Nat) (w : Words) : rngAdvanceBy (n + 1) w = rngAdvance (rngAdvanceBy n w) := by
  induction n generalizing w with
  | zero => rfl
  | succ n ih => exact ih (rngAdvance w)

section
variable (n : Nat) (w : Words)

theorem rngAdvanceBy_succ_w3 : (rngAdvanceBy (n + 1) w).w3 = rngOutput (rngAdvanceBy n w) := by
  rw [rngAdvanceBy_succ, rngAdvance]

theorem rngAdvanceBy_succ_w2 : (rngAdvanceBy (n + 1) w).w2 = (rngAdvanceBy n w).w3 := by
  rw [rngAdvanceBy_succ, rngAdvance]

theorem rngAdvanceBy_succ_w1 : (rngAdvanceBy (n + 1) w).w1 = (rngAdvanceBy n w).w2 := by
  rw [rngAdvanceBy_succ, rngAdvance]

theorem rngAdvanceBy_succ_w0 : (rngAdvanceBy (n + 1) w).w0 = (rngAdvanceBy n w).w1 := by
  rw [rngAdvanceBy_succ, rngAdvance]

end

/-- Settles O23: an output enters at W3 and each later draw moves it down by one word. -/
theorem wordsAfterDrawsAreOutputs : Obligations.WordsAfterDrawsAreOutputs := by
  unfold Obligations.WordsAfterDrawsAreOutputs
  intro w n
  refine ⟨fun h => ?w3, fun h => ?w2, fun h => ?w1, fun h => ?w0⟩ <;>
    obtain ⟨m, rfl⟩ := Nat.exists_eq_add_of_le' h
  case w3 => exact rngAdvanceBy_succ_w3 m w
  case w2 => rw [rngAdvanceBy_succ_w2, rngAdvanceBy_succ_w3]; rfl
  case w1 => rw [rngAdvanceBy_succ_w1, rngAdvanceBy_succ_w2, rngAdvanceBy_succ_w3]; rfl
  case w0 => rw [rngAdvanceBy_succ_w0, rngAdvanceBy_succ_w1, rngAdvanceBy_succ_w2, rngAdvanceBy_succ_w3]; rfl

/-! ### A word XOR its own shift determines the word -/

section
variable {m n : Nat}

/-- For a map linear over XOR, adding each value to its argument is one-to-one when only zero is a fixed point. -/
theorem xor_map_injective {g : BitVec m → BitVec m} (hxor : ∀ x y, g (x ^^^ y) = g x ^^^ g y)
    (hfix : ∀ x, x = g x → x = 0#m) : Function.Injective fun x => x ^^^ g x := by
  intro x y (hxy : x ^^^ g x = y ^^^ g y)
  have hg : x ^^^ y = g (x ^^^ y) := by
    rw [hxor, ← BitVec.xor_left_inj (g x ^^^ y)]
    calc x ^^^ y ^^^ (g x ^^^ y)
      _ = (x ^^^ g x) ^^^ (y ^^^ y) := by ac_rfl
      _ = (y ^^^ g y) ^^^ (g x ^^^ g x) := by rw [hxy, BitVec.xor_self, BitVec.xor_self]
      _ = g x ^^^ g y ^^^ (g x ^^^ y) := by ac_rfl
  exact BitVec.xor_eq_zero_iff.1 (hfix _ hg)

/-- Only zero is its own right shift: a shift divides. -/
theorem eq_zero_of_eq_ushiftRight (hn : 0 < n) {x : BitVec m} (hx : x = x >>> n) : x = 0#m := by
  have hdiv : x.toNat = x.toNat / 2 ^ n := by
    rw [← Nat.shiftRight_eq_div_pow, ← BitVec.toNat_ushiftRight, ← hx]
  by_contra hne
  have hpos : 0 < x.toNat := Nat.pos_of_ne_zero fun h => hne (BitVec.eq_of_toNat_eq (by simpa using h))
  exact (Nat.div_lt_self hpos (Nat.one_lt_two_pow hn.ne')).ne hdiv.symm

/-- Only zero is its own left shift: from the low end up, each bit is clear. -/
theorem eq_zero_of_eq_shiftLeft (hn : 0 < n) {x : BitVec m} (hx : x = x <<< n) : x = 0#m := by
  have hbit : ∀ k, x.getLsbD k = false := by
    intro k
    induction k using Nat.strong_induction_on with
    | _ k ih =>
      rw [hx, BitVec.getLsbD_shiftLeft]
      rcases Nat.lt_or_ge k n with hk | hk
      · simp [hk]
      · simp [ih (k - n) (by omega)]
  exact BitVec.eq_of_getLsbD_eq fun k _ => by rw [hbit, BitVec.getLsbD_zero]

theorem xor_ushiftRight_injective (hn : 0 < n) : Function.Injective fun x : BitVec m => x ^^^ (x >>> n) :=
  xor_map_injective (fun _ _ => BitVec.ushiftRight_xor_distrib ..) fun _ => eq_zero_of_eq_ushiftRight hn

theorem xor_shiftLeft_injective (hn : 0 < n) : Function.Injective fun x : BitVec m => x ^^^ (x <<< n) :=
  xor_map_injective (fun _ _ => BitVec.shiftLeft_xor_distrib ..) fun _ => eq_zero_of_eq_shiftLeft hn

end

/-- With W3 known the output determines W0: the two shifts of R143 are undone one after the other. -/
theorem w0_eq_of_rngOutput_eq {v w : Words} (h3 : v.w3 = w.w3) (hout : rngOutput v = rngOutput w) : v.w0 = w.w0 := by
  simp only [rngOutput, h3, BitVec.xor_left_inj] at hout
  exact xor_shiftLeft_injective (by decide) (xor_ushiftRight_injective (by decide) hout)

/-- Settles O24: three words are kept as they are, and the output gives the fourth back. -/
theorem generatorStepIsInjective : Obligations.GeneratorStepIsInjective := by
  unfold Obligations.GeneratorStepIsInjective
  intro v w h
  obtain ⟨h1, h2, h3, hout⟩ := Words.mk.inj h
  have h0 := w0_eq_of_rngOutput_eq h3 hout
  change Words.mk v.w0 v.w1 v.w2 v.w3 = w
  rw [h0, h1, h2, h3]

end Sys2Proof.Machine

/-!
The generator commands (spec/42_rng.md R142, R144): where they complete, where they fault, and what they leave
unchanged.
-/

namespace Sys2Proof.Machine

section
variable {s : State}

theorem exec_rngSeed {seed : Word} (hdone : s.done = false) (hseed : s.seed = some seed) (hw : s.w = none) :
    exec .rngSeed s = .next { s with w := some (rngSeed seed), cp := s.cp + 1 } := by
  rcases rngSeedBody_cases s with ⟨hcond, -⟩ | ⟨_, hseed', -, e⟩
  · simp [hseed, hw] at hcond
  · cases hseed.symm.trans hseed'
    exact exec_of_body_done (i := .rngSeed) (by decide) hdone e

theorem exec_rngNext {w : Words} (hdone : s.done = false) (hw : s.w = some w) :
    exec .rngNext s = .next { s with rnd := some (rngOutput w), w := some (rngAdvance w), cp := s.cp + 1 } := by
  rcases rngNextBody_cases s with ⟨hnone, -⟩ | ⟨_, hw', e⟩
  · simp [hw] at hnone
  · cases hw.symm.trans hw'
    exact exec_of_body_done (i := .rngNext) (by decide) hdone e

end

/-- Settles O21. -/
theorem rngSeedCreatesGenerator : Obligations.RngSeedCreatesGenerator := by
  unfold Obligations.RngSeedCreatesGenerator
  refine ⟨by decide, fun s hdone => ⟨fun hinvalid => ?_, fun seed => exec_rngSeed hdone⟩⟩
  rcases rngSeedBody_cases s with ⟨-, e⟩ | ⟨seed, hseed, hw, -⟩
  · exact exec_of_body_raise (by decide) hdone (by decide) e
  · simp [State.seedValid, State.rngValid, hseed, hw] at hinvalid

/-- Settles O22: R143 written out is the model's output and its move of the words. -/
theorem rngNextDrawsOutput : Obligations.RngNextDrawsOutput := by
  unfold Obligations.RngNextDrawsOutput
  refine ⟨by decide, fun s hdone => ⟨fun hinvalid => ?_, fun w => exec_rngNext hdone⟩⟩
  rcases rngNextBody_cases s with ⟨-, e⟩ | ⟨w, hw, -⟩
  · exact exec_of_body_raise (by decide) hdone (by decide) e
  · simp [State.rngValid, hw] at hinvalid

/-- What holds after a command that does not decrypt: what its body ends in once `CP` has advanced, if fault entry gives
it too. -/
theorem exec_next_of_ends {i : Instr} {s t : State} {P : State → Prop} (hhalt : i ≠ .halt) (hrun : i ≠ .run)
    (hdec : i ≠ .decRun) (h : exec i s = .next t) (hbody : (bodyOf i s).Ends (fun u => P u.advance) fun _ => True)
    (hfault : ∀ c, P (s.takeFault c)) : P t := by
  rcases exec_next_done_or_takeFault hhalt hrun hdec h with ⟨u, hu, rfl⟩ | ⟨c, -, rfl⟩
  · exact hbody.of_eq_done hu
  · exact hfault c

/-- What a generator command `i` keeps of the values the run makes: all but the words, and the drawn number unless
`i` draws one. -/
def generatorKeepsValues (i : Instr) (s t : State) : Prop :=
  (i = .rngSeed → t.rnd = s.rnd) ∧
    t.crcAcc = s.crcAcc ∧ t.seed = s.seed ∧ t.key = s.key ∧ t.iv = s.iv ∧ t.ctLen = s.ctLen

/-- Settles O46: the body's own frame, and the one every command that does not decrypt has. -/
theorem generatorFrame : Obligations.GeneratorFrame := by
  unfold Obligations.GeneratorFrame
  intro i s t hi h
  obtain ⟨hhalt, hrun, hdec⟩ : i ≠ .halt ∧ i ≠ .run ∧ i ≠ .decRun := by
    rcases hi with rfl | rfl <;> decide
  obtain ⟨hfaulted, hplain, hinputs⟩ := exec_frame hhalt hrun hdec h
  have hvalues : generatorKeepsValues i s t := by
    refine exec_next_of_ends hhalt hrun hdec h ?_ fun c => by simp [generatorKeepsValues]
    rcases hi with rfl | rfl
    · exact rngSeedBody_ends trivial (by simp [generatorKeepsValues])
    · exact rngNextBody_ends trivial (by simp [generatorKeepsValues])
  obtain ⟨hrnd, hcrcAcc, hseed, hkey, hiv, hctLen⟩ := hvalues
  have ⟨_, _, hptLen, hdone⟩ := hplain
  exact ⟨hrnd, hcrcAcc, hseed, hkey, hiv, hctLen, hptLen, hdone, hfaulted, hplain.samePt, hinputs⟩

end Sys2Proof.Machine

/-!
The derivation in numbers (spec/43_kdf.md R161 to R163): `n` bytes are spelled by the digits of `2 n` draws, and the
derivation fails exactly where one of the draws looks up no digit.
-/

namespace Sys2Proof.Machine

/-! ### Digits -/

/-- Two digits give the byte they spell, and anything else gives none; the high digit is below 16, so the byte does not
wrap. -/
theorem hexPair_cases (c0 c1 : Byte) :
    ((hexDigitOf c0 = none ∨ hexDigitOf c1 = none) ∧ hexPair c0 c1 = none) ∨
      ∃ high low b, hexDigitOf c0 = some high ∧ hexDigitOf c1 = some low ∧ b.toNat = 16 * high + low ∧
        hexPair c0 c1 = some b := by
  have h0 := hexDigitOf_eq_hexval c0
  have h1 := hexDigitOf_eq_hexval c1
  cases hv0 : hexval c0 with
  | none => exact .inl ⟨.inl (by simp [h0, hv0]), by simp [hexPair, hv0]⟩
  | some high =>
    cases hv1 : hexval c1 with
    | none => exact .inl ⟨.inr (by simp [h1, hv1]), by simp [hexPair, hv0, hv1]⟩
    | some low =>
      have h0 : hexDigitOf c0 = some high.toNat := by simp [h0, hv0]
      have h1 : hexDigitOf c1 = some low.toNat := by simp [h1, hv1]
      have hhigh := hexDigitOf_lt h0
      have hlow := hexDigitOf_lt h1
      exact .inr ⟨_, _, 16 * high + low, h0, h1, by bv_omega, by simp [hexPair, hv0, hv1]⟩

section
variable {rom : Vector Byte 256} {w : Words}

/-- Every entry of a well-formed table is a digit, so every draw looks one up. -/
theorem KmtWf.drawnChar_digit (h : KmtWf rom) (j : Nat) : hexDigitOf (drawnChar rom w j) ≠ none := by
  have hentry := h (drawIndex (rngOutput (rngAdvanceBy j w)))
  rw [← drawnChar_eq_romAt] at hentry
  simp only [BitVec.le_def] at hentry
  rcases hentry with ⟨hlo, hhi⟩ | ⟨hlo, hhi⟩
  · have hdecimal : 48 ≤ (drawnChar rom w j).toNat ∧ (drawnChar rom w j).toNat ≤ 57 := ⟨hlo, hhi⟩
    simp [hexDigitOf, hdecimal]
  · have hletter : 97 ≤ (drawnChar rom w j).toNat ∧ (drawnChar rom w j).toNat ≤ 102 := ⟨hlo, hhi⟩
    have hnot : ¬ (drawnChar rom w j).toNat ≤ 57 := by omega
    simp [hexDigitOf, hletter, hnot]

/-! ### Bytes -/

/-- Byte `j` of a derivation from the words `w` is the one its two draws spell (R162). -/
def spelledAt (rom : Vector Byte 256) (w : Words) (j : Nat) (b : Byte) : Prop :=
  ∃ high low, hexDigitOf (drawnChar rom w (2 * j)) = some high ∧
    hexDigitOf (drawnChar rom w (2 * j + 1)) = some low ∧ b.toNat = 16 * high + low

theorem spelledByDraws_iff {bytes : Block} :
    spelledByDraws rom w bytes ↔ ∀ j < 16, spelledAt rom w j (bytes.at j) := .rfl

/-- Both draws of a spelled byte look up a digit. -/
theorem spelledAt.digit_ne_none {k : Nat} {b : Byte} (h : spelledAt rom w (k / 2) b) :
    hexDigitOf (drawnChar rom w k) ≠ none := by
  obtain ⟨high, low, hhigh, hlow, -⟩ := h
  rcases Nat.mod_two_eq_zero_or_one k with heven | hodd
  · rw [show k = 2 * (k / 2) by omega, hhigh]; simp
  · rw [show k = 2 * (k / 2) + 1 by omega, hlow]; simp

theorem kdfByte_eq (j : Nat) :
    kdfByte rom (rngAdvanceBy (2 * j) w) =
      (hexPair (drawnChar rom w (2 * j)) (drawnChar rom w (2 * j + 1))).map (·, rngAdvanceBy (2 * (j + 1)) w) := by
  rw [Nat.mul_add_one, rngAdvanceBy_succ, drawnChar_eq_romAt, drawnChar_eq_romAt, rngAdvanceBy_succ, kdfByte]
  cases hexPair _ _ <;> rfl

/-- Iteration `j` of R163's loop: a byte spelled by its two draws, or none where one of them looks up no digit. -/
theorem kdfByte_cases (j : Nat) :
    ((∃ k < 2 * (j + 1), hexDigitOf (drawnChar rom w k) = none) ∧
        kdfByte rom (rngAdvanceBy (2 * j) w) = none) ∨
      ∃ b, spelledAt rom w j b ∧
        kdfByte rom (rngAdvanceBy (2 * j) w) = some (b, rngAdvanceBy (2 * (j + 1)) w) := by
  rw [kdfByte_eq]
  rcases hexPair_cases (drawnChar rom w (2 * j)) (drawnChar rom w (2 * j + 1)) with
    ⟨hhigh | hlow, e⟩ | ⟨high, low, b, hhigh, hlow, hb, e⟩
  · exact .inl ⟨⟨_, by omega, hhigh⟩, by rw [e]; rfl⟩
  · exact .inl ⟨⟨_, by omega, hlow⟩, by rw [e]; rfl⟩
  · exact .inr ⟨b, ⟨high, low, hhigh, hlow, hb⟩, by rw [e]; rfl⟩

/-- The first `n` iterations of R163's loop: as many bytes, each spelled by its two draws, or none where one of the
`2 n` draws looks up no digit. -/
theorem kdfBytes_cases (n : Nat) :
    ((∃ k < 2 * n, hexDigitOf (drawnChar rom w k) = none) ∧ kdfBytes rom n w = none) ∨
      ∃ out : Vector Byte n, (∀ (j : Nat) (hj : j < n), spelledAt rom w j out[j]) ∧
        kdfBytes rom n w = some (out, rngAdvanceBy (2 * n) w) := by
  induction n with
  | zero => exact .inr ⟨#v[], by simp, rfl⟩
  | succ n ih =>
    rcases ih with ⟨⟨k, hk, hnone⟩, e⟩ | ⟨out, hout, e⟩
    · exact .inl ⟨⟨k, by omega, hnone⟩, by simp [kdfBytes, e]⟩
    rcases kdfByte_cases (rom := rom) (w := w) n with ⟨hnone, e'⟩ | ⟨b, hb, e'⟩
    · exact .inl ⟨hnone, by simp [kdfBytes, e, e']⟩
    · refine .inr ⟨out.push b, fun j hj => ?_, by simp [kdfBytes, e, e']⟩
      rcases Nat.lt_succ_iff_lt_or_eq.1 hj with hlt | rfl
      · rw [Vector.getElem_push_lt hlt]; exact hout j hlt
      · rw [Vector.getElem_push_eq]; exact hb

theorem Block.at_eq_getElem (b : Block) {j : Nat} (hj : j < 16) : b.at j = b[j] := by
  simp [Block.at, hj]

/-- The derivation fails exactly where one of its 32 draws looks up no digit (R167). -/
theorem deriveSequence_eq_none_iff :
    deriveSequence rom w = none ↔ ∃ j < 32, hexDigitOf (drawnChar rom w j) = none := by
  rw [deriveSequence]
  rcases kdfBytes_cases (rom := rom) (w := w) 16 with ⟨hnone, e⟩ | ⟨out, hout, e⟩
  · exact iff_of_true e hnone
  · refine iff_of_false (by simp [e]) ?_
    rintro ⟨j, hj, hnone⟩
    exact (hout (j / 2) (by omega)).digit_ne_none hnone

/-- A derivation that succeeds gives what its 32 draws spell, and the words after them. -/
theorem deriveSequence_eq_some {bytes : Block} {w' : Words} (h : deriveSequence rom w = some (bytes, w')) :
    spelledByDraws rom w bytes ∧ w' = rngAdvanceBy 32 w := by
  rw [deriveSequence] at h
  rcases kdfBytes_cases (rom := rom) (w := w) 16 with ⟨-, e⟩ | ⟨out, hout, e⟩ <;> cases e.symm.trans h
  exact ⟨spelledByDraws_iff.2 fun j hj => by rw [Block.at_eq_getElem bytes hj]; exact hout j hj, rfl⟩

theorem KmtWf.deriveSequence_ne_none (h : KmtWf rom) : deriveSequence rom w ≠ none := fun hnone => by
  obtain ⟨j, -, hj⟩ := deriveSequence_eq_none_iff.1 hnone
  exact h.drawnChar_digit j hj

end

end Sys2Proof.Machine

/-!
The derivation commands (spec/43_kdf.md R164, R165, R167): where they complete, where they fault, and what they leave
unchanged; under `KMT_WF` no command raises their KdfParseError.
-/

namespace Sys2Proof.Machine

/-- Settles O25, by the three outcomes of the body. -/
theorem kdfKeyDerivesFromDraws : Obligations.KdfKeyDerivesFromDraws := by
  unfold Obligations.KdfKeyDerivesFromDraws
  refine ⟨by decide, fun s hdone => ?_⟩
  rcases kdfKeyBody_cases s with ⟨hcond, e⟩ | ⟨w, hw, hkey, hderive, e⟩ | ⟨w, key, w', hw, hkey, hderive, e⟩
  · exact ⟨fun _ => exec_of_body_raise (by decide) hdone (by decide) e, fun w hw hkey => by simp [hw, hkey] at hcond⟩
  · refine ⟨by simp [State.rngValid, State.keyValid, hw, hkey], fun _ hw₁ _ => ?_⟩
    cases hw.symm.trans hw₁
    obtain ⟨j, hj, hnone⟩ := deriveSequence_eq_none_iff.1 hderive
    exact ⟨fun _ => exec_of_body_raise (by decide) hdone (by decide) e, fun h => absurd hnone (h j hj)⟩
  · refine ⟨by simp [State.rngValid, State.keyValid, hw, hkey], fun _ hw₁ _ => ?_⟩
    cases hw.symm.trans hw₁
    obtain ⟨hspelled, rfl⟩ := deriveSequence_eq_some hderive
    exact ⟨fun h => by simp [deriveSequence_eq_none_iff.2 h] at hderive,
      fun _ => ⟨key, hspelled, exec_of_body_done (i := .kdfKey) (by decide) hdone e⟩⟩

/-- Settles O26, by the three outcomes of the body. -/
theorem kdfIvDerivesFromDraws : Obligations.KdfIvDerivesFromDraws := by
  unfold Obligations.KdfIvDerivesFromDraws
  refine ⟨by decide, fun s hdone => ?_⟩
  rcases kdfIvBody_cases s with
    ⟨hcond, e⟩ | ⟨w, hw, hkey, hiv, hderive, e⟩ | ⟨w, iv, w', hw, hkey, hiv, hderive, e⟩
  · refine ⟨fun _ => exec_of_body_raise (by decide) hdone (by decide) e, fun w hw hkey hiv => ?_⟩
    rw [State.keyValid] at hkey
    rcases hcond with h | h | h
    · simp [hw] at h
    · simp [h] at hkey
    · simp [hiv] at h
  · refine ⟨by simp [State.rngValid, State.keyValid, State.ivValid, hw, hkey, hiv], fun _ hw₁ _ _ => ?_⟩
    cases hw.symm.trans hw₁
    obtain ⟨j, hj, hnone⟩ := deriveSequence_eq_none_iff.1 hderive
    exact ⟨fun _ => exec_of_body_raise (by decide) hdone (by decide) e, fun h => absurd hnone (h j hj)⟩
  · refine ⟨by simp [State.rngValid, State.keyValid, State.ivValid, hw, hkey, hiv], fun _ hw₁ _ _ => ?_⟩
    cases hw.symm.trans hw₁
    obtain ⟨hspelled, rfl⟩ := deriveSequence_eq_some hderive
    exact ⟨fun h => by simp [deriveSequence_eq_none_iff.2 h] at hderive,
      fun _ => ⟨iv, hspelled, exec_of_body_done (i := .kdfIv) (by decide) hdone e⟩⟩

/-! ### KdfParseError -/

/-- A body that cannot raise KdfParseError under `KMT_WF`. -/
def NeverParseError (body : State → SubStep) : Prop :=
  ∀ s t, KmtWf s.cfg.kmtRom → body s ≠ .raise .kdfParseError t

/-- Two bodies in sequence never raise KdfParseError if neither does and the first leaves the table. -/
theorem NeverParseError.andThen {f g : State → SubStep} (hf : NeverParseError f) (hk : KeepsControl f)
    (hg : NeverParseError g) : NeverParseError fun s => (f s).andThen g := by
  intro s t hwf h
  change (f s).andThen g = .raise .kdfParseError t at h
  rcases SubStep.andThen_cases (f s) g with ⟨u, hu, e⟩ | ⟨c, u, hu, e⟩ | ⟨_, -, e⟩
  · obtain ⟨-, -, -, -, -, hcfg⟩ := hk s u hu
    exact hg u t (hcfg ▸ hwf) (e.symm.trans h)
  · exact hf s t hwf (hu.trans (e.symm.trans h))
  · cases e.symm.trans h

/-- Only a failed derivation raises KdfParseError, and under `KMT_WF` none fails. -/
theorem bodyOf_neverParseError {i : Instr} (hi : i ≠ .run) : NeverParseError (bodyOf i) := by
  intro s t hwf h
  cases i with
  | run => exact absurd rfl hi
  | halt => cases h
  | crcInit => cases h
  | crcUpd b => rcases crcUpdBody_cases b s with ⟨-, e⟩ | ⟨_, -, e⟩ <;> cases e.symm.trans h
  | crcFin => rcases crcFinBody_cases s with ⟨-, e⟩ | ⟨_, -, -, e⟩ <;> cases e.symm.trans h
  | crcId => rcases crcIdBody_cases s with ⟨-, e⟩ | ⟨-, -, e⟩ | ⟨-, -, e⟩ <;> cases e.symm.trans h
  | rngSeed => rcases rngSeedBody_cases s with ⟨-, e⟩ | ⟨_, -, -, e⟩ <;> cases e.symm.trans h
  | rngNext => rcases rngNextBody_cases s with ⟨-, e⟩ | ⟨_, -, e⟩ <;> cases e.symm.trans h
  | kdfKey =>
    rcases kdfKeyBody_cases s with ⟨-, e⟩ | ⟨w, -, -, hderive, -⟩ | ⟨_, _, _, -, -, -, e⟩
    · cases e.symm.trans h
    · exact hwf.deriveSequence_ne_none hderive
    · cases e.symm.trans h
  | kdfIv =>
    rcases kdfIvBody_cases s with ⟨-, e⟩ | ⟨w, -, -, -, hderive, -⟩ | ⟨_, _, _, -, -, -, -, e⟩
    · cases e.symm.trans h
    · exact hwf.deriveSequence_ne_none hderive
    · cases e.symm.trans h
  | frmParse => rcases frmParseBody_cases s with ⟨-, e⟩ | ⟨-, -, e⟩ | ⟨-, -, -, e⟩ <;> cases e.symm.trans h
  | decRun =>
    rcases decRunBody_cases s with
      ⟨-, e⟩ | ⟨_, _, _, -, -, -, ⟨-, e⟩ | ⟨-, ⟨-, e⟩ | ⟨_, _, -, -, e⟩⟩⟩ <;> cases e.symm.trans h

/-- RUN never raises KdfParseError under `KMT_WF`, since none of its six sub-steps does (R252, R277). -/
theorem runBody_neverParseError : NeverParseError runBody := by
  have never {i : Instr} (hi : i ≠ .run) : NeverParseError (bodyOf i) := bodyOf_neverParseError hi
  have keeps2 := andThen_keeps crcIdBody_keeps rngSeedBody_keeps
  have keeps3 := andThen_keeps keeps2 kdfKeyBody_keeps
  have keeps4 := andThen_keeps keeps3 kdfIvBody_keeps
  have keeps5 := andThen_keeps keeps4 frmParseBody_keeps
  have never2 := (never (i := .crcId) (by decide)).andThen crcIdBody_keeps (never (i := .rngSeed) (by decide))
  have never3 := never2.andThen keeps2 (never (i := .kdfKey) (by decide))
  have never4 := never3.andThen keeps3 (never (i := .kdfIv) (by decide))
  have never5 := never4.andThen keeps4 (never (i := .frmParse) (by decide))
  exact never5.andThen keeps5 (never (i := .decRun) (by decide))

/-- Settles O27: a command records a cause only where its body raises it or the single-shot check does. -/
theorem wellFormedTableNeverFaults : Obligations.WellFormedTableNeverFaults := by
  unfold Obligations.WellFormedTableNeverFaults
  intro i s t hwf hcause h
  have hnever : NeverParseError (bodyOf i) := by
    by_cases hi : i = .run
    · subst hi; exact runBody_neverParseError
    · exact bodyOf_neverParseError hi
  rcases exec_next h with ⟨-, rfl⟩ | ⟨-, ⟨-, rfl⟩ | ⟨-, ⟨u, hu, rfl⟩ | ⟨c, u, hu, rfl⟩⟩⟩
  · exact hcause
  · simp
  · obtain ⟨-, -, hkept, -⟩ := bodyOf_keeps i s u hu
    simpa [hkept] using hcause
  · rw [State.takeFault_cause]
    rintro rfl
    exact hnever s u hwf hu

/-! ### Frame -/

/-- What a derivation command `i` keeps of the values the run makes: all but the words and the register it derives. -/
def derivationKeepsValues (i : Instr) (s t : State) : Prop :=
  (i = .kdfIv → t.key = s.key) ∧ (i = .kdfKey → t.iv = s.iv) ∧
    t.crcAcc = s.crcAcc ∧ t.seed = s.seed ∧ t.rnd = s.rnd ∧ t.ctLen = s.ctLen

/-- Settles O47: the body's own frame, and the one every command that does not decrypt has. -/
theorem derivationFrame : Obligations.DerivationFrame := by
  unfold Obligations.DerivationFrame
  intro i s t hi h
  obtain ⟨hhalt, hrun, hdec⟩ : i ≠ .halt ∧ i ≠ .run ∧ i ≠ .decRun := by
    rcases hi with rfl | rfl <;> decide
  obtain ⟨hfaulted, hplain, hinputs⟩ := exec_frame hhalt hrun hdec h
  have hvalues : derivationKeepsValues i s t := by
    refine exec_next_of_ends hhalt hrun hdec h ?_ fun c => by simp [derivationKeepsValues]
    rcases hi with rfl | rfl
    · exact kdfKeyBody_ends trivial (by simp [derivationKeepsValues])
    · exact kdfIvBody_ends trivial (by simp [derivationKeepsValues])
  obtain ⟨hkey, hiv, hcrcAcc, hseed, hrnd, hctLen⟩ := hvalues
  have ⟨_, _, hptLen, hdone⟩ := hplain
  exact ⟨hkey, hiv, hcrcAcc, hseed, hrnd, hctLen, hptLen, hdone, hfaulted, hplain.samePt, hinputs⟩

end Sys2Proof.Machine

/-!
The frame parser's marker (spec/44_frame.md R180): reading eight bytes as a little-endian number loses none of them, so
the number is `MAGIC` exactly where the bytes are the marker's.
-/

namespace Sys2Proof.Machine

/-! ### Little-endian numbers -/

/-- A little-endian number has its bytes as base-256 digits, the first least significant (R11). -/
theorem le64_toNat_mod (bs : List Byte) : (le64 bs).toNat = Nat.ofDigits 256 (bs.map BitVec.toNat) % 2 ^ 64 := by
  induction bs with
  | nil => rfl
  | cons b bs ih => simp [le64, Nat.ofDigits_cons, ih]

theorem toNat_lt_of_mem_map {bs : List Byte} {d : Nat} (h : d ∈ bs.map BitVec.toNat) : d < 256 := by
  obtain ⟨b, -, rfl⟩ := List.mem_map.1 h
  exact b.isLt

/-- Up to eight bytes fit the number, so it does not wrap. -/
theorem le64_toNat {bs : List Byte} (h : bs.length ≤ 8) :
    (le64 bs).toNat = Nat.ofDigits 256 (bs.map BitVec.toNat) := by
  have hdigits := Nat.ofDigits_lt_base_pow_length (b := 256) (by decide) fun _ => toNat_lt_of_mem_map (bs := bs)
  have hpow : 256 ^ bs.length ≤ 256 ^ 8 := Nat.pow_le_pow_right (by decide) h
  rw [List.length_map] at hdigits
  rw [le64_toNat_mod]
  exact Nat.mod_eq_of_lt (hdigits.trans_le hpow)

/-- Digits determine the bytes: two sequences of one length, at most eight, with the same number are the same. -/
theorem le64_inj {bs cs : List Byte} (h : bs.length ≤ 8) (hlen : bs.length = cs.length) :
    le64 bs = le64 cs ↔ bs = cs := by
  refine ⟨fun heq => ?_, congrArg le64⟩
  have hnum : Nat.ofDigits 256 (bs.map BitVec.toNat) = Nat.ofDigits 256 (cs.map BitVec.toNat) := by
    rw [← le64_toNat h, ← le64_toNat (hlen ▸ h), heq]
  exact List.map_injective_iff.2 (fun _ _ => BitVec.eq_of_toNat_eq)
    (Nat.ofDigits_inj_of_len_eq (by decide) (by simpa) (fun _ => toNat_lt_of_mem_map)
      (fun _ => toNat_lt_of_mem_map) hnum)

/-! ### The marker -/

theorem le64_magicBytes : le64 magicBytes = magic := by decide

/-- The trailer's number is `MAGIC` exactly where its bytes are the marker's (R180, R182). -/
theorem State.trailer_eq_magic_iff {s : State} (h8 : 8 ≤ s.launch.fileLen.toNat) :
    le64 (s.fileBytes.drop (s.launch.fileLen.toNat - 8)) = magic ↔
      s.fileBytes.drop (s.launch.fileLen.toNat - 8) = magicBytes := by
  have hlen : (s.fileBytes.drop (s.launch.fileLen.toNat - 8)).length = 8 := by
    have hfile : s.fileBytes.length = s.launch.fileLen.toNat := by simp [State.fileBytes, sequenceOf]
    rw [List.length_drop, hfile]
    omega
  rw [← le64_magicBytes, le64_inj (cs := magicBytes) hlen.le hlen]

end Sys2Proof.Machine

/-!
FRM.PARSE (spec/44_frame.md R182): where it completes and where it faults; and what FRM.PARSE and HALT leave unchanged
(spec/47_control.md R251).
-/

namespace Sys2Proof.Machine

/-- Settles O28, by the three outcomes of the body: they exclude each other, since the number that the body compares is
`MAGIC` exactly at the marker. -/
theorem frmParseChecksMarker : Obligations.FrmParseChecksMarker := by
  unfold Obligations.FrmParseChecksMarker
  refine ⟨by decide, fun s hdone => ?_⟩
  rcases frmParseBody_cases s with ⟨hct, e⟩ | ⟨hct, hbad, e⟩ | ⟨hct, h8, hmagic, e⟩
  · have hne : s.ctLen ≠ none := Option.isSome_iff_ne_none.1 hct
    exact ⟨fun _ => exec_of_body_raise (by decide) hdone (by decide) e, fun h => absurd h hne,
      fun h => absurd h hne, fun h => absurd h hne⟩
  · have hfault : exec .frmParse s = .next (s.faulting .formatError) :=
      exec_of_body_raise (by decide) hdone (by decide) e
    refine ⟨by simp [State.ctValid, hct], fun _ _ => hfault, fun _ _ _ => hfault, fun _ h8 hmarker => ?_⟩
    rcases hbad with hlt | hne
    · omega
    · exact absurd ((State.trailer_eq_magic_iff h8).2 hmarker) hne
  · refine ⟨by simp [State.ctValid, hct], fun _ hlt => by omega, fun _ _ hne => ?_,
      fun _ _ _ => exec_of_body_done (i := .frmParse) (by decide) hdone e⟩
    exact absurd ((State.trailer_eq_magic_iff h8).1 hmagic) hne

/-! ### Frame -/

/-- What FRM.PARSE keeps of the values the run makes: all but `CT_LEN`. -/
def parserKeepsValues (s t : State) : Prop :=
  t.crcAcc = s.crcAcc ∧ t.seed = s.seed ∧ t.w = s.w ∧ t.rnd = s.rnd ∧ t.key = s.key ∧ t.iv = s.iv

theorem exec_frmParse_keepsValues {s t : State} (h : exec .frmParse s = .next t) : parserKeepsValues s t := by
  refine exec_next_of_ends (by decide) (by decide) (by decide) h ?_ fun c => by simp [parserKeepsValues]
  exact frmParseBody_ends trivial (by simp [parserKeepsValues])

/-- Settles O48: FRM.PARSE has the frame of every command that does not decrypt, and HALT's next state is written
out. -/
theorem parserAndHaltFrame : Obligations.ParserAndHaltFrame := by
  unfold Obligations.ParserAndHaltFrame
  refine ⟨fun s t h => ?frmParse, fun s t h => ?halt⟩
  case frmParse =>
    obtain ⟨hfaulted, hplain, hinputs⟩ := exec_frame (by decide) (by decide) (by decide) h
    obtain ⟨hcrcAcc, hseed, hw, hrnd, hkey, hiv⟩ := exec_frmParse_keepsValues h
    have ⟨_, _, hptLen, hdone⟩ := hplain
    exact ⟨hcrcAcc, hseed, hw, hrnd, hkey, hiv, hptLen, hdone, hfaulted, hplain.samePt, hinputs⟩
  case halt =>
    rw [exec_halt] at h
    cases h
    exact ⟨rfl, rfl, rfl, rfl, rfl, rfl, rfl, rfl, rfl, rfl, rfl, rfl, fun _ => rfl, .of_launch_eq rfl rfl⟩

end Sys2Proof.Machine

/-!
SUPPORT. Blocks and regions (spec/00_scope.md R11, spec/45_cipher.md R198): a block is its sixteen bytes, XOR with a
block undoes itself, and a region of whole blocks is the bytes of its blocks in order.
-/

namespace Sys2Proof.Machine

/-! ### Blocks -/

theorem Block.at_tabulate (f : Nat → Byte) {i : Nat} (hi : i < 16) : (Block.tabulate f).at i = f i := by
  interval_cases i <;> rfl

theorem Block.ext_at {a b : Block} (h : ∀ i < 16, a.at i = b.at i) : a = b :=
  Vector.ext fun i hi => by rw [← Block.at_eq_getElem a hi, ← Block.at_eq_getElem b hi, h i hi]

theorem Block.toList_getElem? (b : Block) {i : Nat} (hi : i < 16) : b.toList[i]? = some (b.at i) := by
  simp [Block.at_eq_getElem b hi, hi]

theorem xorBlock_at (a b : Block) {i : Nat} (hi : i < 16) : (xorBlock a b).at i = a.at i ^^^ b.at i :=
  Block.at_tabulate _ hi

@[simp] theorem xorBlock_cancel_right (a b : Block) : xorBlock (xorBlock a b) b = a :=
  Block.ext_at fun i hi => by
    rw [xorBlock_at _ _ hi, xorBlock_at _ _ hi, BitVec.xor_assoc, BitVec.xor_self, BitVec.xor_zero]

theorem xorBlock_left_injective (b : Block) : Function.Injective fun a => xorBlock a b :=
  Function.LeftInverse.injective (g := fun a => xorBlock a b) fun a => xorBlock_cancel_right a b

/-! ### Regions -/

@[simp] theorem regionBlocks_length (region : List Byte) : (regionBlocks region).length = region.length / 16 := by
  simp [regionBlocks]

theorem regionBlocks_getElem? {region : List Byte} {k : Nat} (hk : k < region.length / 16) :
    (regionBlocks region)[k]? = some (regionBlock region k) := by
  simp [regionBlocks, hk]

theorem regionBlocks_of_le {region : List Byte} (h : 16 ≤ region.length) :
    regionBlocks region = regionBlock region 0 :: regionBlocks (region.drop 16) := by
  have hdrop (k : Nat) : regionBlock region (k + 1) = regionBlock (region.drop 16) k :=
    Block.ext_at fun i hi => by
      rw [regionBlock, regionBlock, Block.at_tabulate _ hi, Block.at_tabulate _ hi]
      simp [show 16 * (k + 1) + i = 16 + (16 * k + i) by omega]
  have hlen : region.length / 16 = (region.drop 16).length / 16 + 1 := by rw [List.length_drop]; omega
  simp [regionBlocks, hlen, List.range_succ_eq_map, hdrop]

theorem toList_regionBlock_zero {region : List Byte} (h : 16 ≤ region.length) :
    (regionBlock region 0).toList = region.take 16 := by
  refine List.ext_getElem (by simp [h]) fun i hi _ => ?_
  have hi : i < 16 := by simpa using hi
  rw [Vector.getElem_toList, ← Block.at_eq_getElem _ hi, regionBlock, Block.at_tabulate _ hi]
  simp [show i < region.length by omega]

/-- Cutting a region of whole blocks into blocks loses nothing. -/
theorem flatMap_regionBlocks {region : List Byte} {m : Nat} (h : region.length = 16 * m) :
    (regionBlocks region).flatMap Vector.toList = region := by
  induction m generalizing region with
  | zero => simp [List.eq_nil_of_length_eq_zero h, regionBlocks]
  | succ m ih =>
    have hle : 16 ≤ region.length := by omega
    rw [regionBlocks_of_le hle, List.flatMap_cons, toList_regionBlock_zero hle,
      ih (by rw [List.length_drop]; omega), List.take_append_drop]

end Sys2Proof.Machine

/-!
The chaining recurrence (spec/45_cipher.md R198; PRESUMED, notes/assumptions/11.md): its output byte by byte, its
inverse, and that it loses nothing where the block primitive does not.
-/

namespace Sys2Proof.Machine

section
variable {dec : Block → Block}

@[simp] theorem chainDecrypt_length (chain : Block) (cs : List Block) :
    (chainDecrypt dec chain cs).length = 16 * cs.length := by
  induction cs generalizing chain with
  | nil => rfl
  | cons c cs ih => simp [chainDecrypt, ih]; omega

/-- Byte `i` of output block `k`: the decryption of block `k` XOR the chain value, the element before it. -/
theorem chainDecrypt_getElem? {chain c v : Block} {cs : List Block} {k i : Nat} (hc : cs[k]? = some c)
    (hv : (chain :: cs)[k]? = some v) (hi : i < 16) :
    (chainDecrypt dec chain cs)[16 * k + i]? = some ((dec c).at i ^^^ v.at i) := by
  induction cs generalizing chain k with
  | nil => cases hc
  | cons d ds ih =>
    cases k with
    | zero =>
      cases hc
      cases hv
      rw [chainDecrypt, List.getElem?_append_left (by simpa using hi), Nat.mul_zero, Nat.zero_add,
        Block.toList_getElem? _ hi, xorBlock_at _ _ hi]
    | succ k =>
      rw [chainDecrypt, List.getElem?_append_right (by simp; omega), ← ih hc hv, Vector.length_toList]
      congr 1
      omega

/-- Chained decryption undoes chained encryption, block by block. -/
theorem chainDecrypt_chainEncrypt {enc : Block → Block} (h : ∀ b, dec (enc b) = b) (chain : Block)
    (ps : List Block) : chainDecrypt dec chain (chainEncrypt enc chain ps) = ps.flatMap Vector.toList := by
  induction ps generalizing chain with
  | nil => rfl
  | cons p ps ih => rw [chainEncrypt, chainDecrypt, h, xorBlock_cancel_right, ih, List.flatMap_cons]

/-- The first output block determines the first ciphertext block, which is the chain value of the rest. -/
theorem chainDecrypt_injective (h : Function.Injective dec) {chain : Block} {cs ds : List Block}
    (heq : chainDecrypt dec chain cs = chainDecrypt dec chain ds) : cs = ds := by
  have hlen : cs.length = ds.length := by simpa using congrArg List.length heq
  induction cs generalizing chain ds with
  | nil => exact (List.eq_nil_of_length_eq_zero hlen.symm).symm
  | cons c cs ih =>
    cases ds with
    | nil => cases hlen
    | cons d ds =>
      rw [chainDecrypt, chainDecrypt] at heq
      obtain ⟨hhead, htail⟩ := List.append_inj heq (by simp)
      obtain rfl : c = d := h (xorBlock_left_injective chain (Vector.toList_inj.1 hhead))
      rw [ih htail (Nat.succ.inj hlen)]

end

/-- Settles O29: output block `k` decrypts region block `k`, and the chain value is the region block before it. -/
theorem chainedDecryptionOfBlocks : Obligations.ChainedDecryptionOfBlocks := by
  unfold Obligations.ChainedDecryptionOfBlocks
  intro dec iv region m hm
  have hcount : region.length / 16 = m := by omega
  refine ⟨by simp [hcount], fun k hk i hi => ?_⟩
  have hblock : (regionBlocks region)[k]? = some (regionBlock region k) := regionBlocks_getElem? (by omega)
  cases k with
  | zero => exact chainDecrypt_getElem? hblock rfl hi
  | succ k =>
    rw [chainDecrypt_getElem? hblock (regionBlocks_getElem? (by omega)) hi, regionBlock, regionBlock,
      Block.at_tabulate (fun j => region.getD (16 * k + j) 0) hi]
    rfl

end Sys2Proof.Machine

/-!
Padding removal (spec/45_cipher.md R199): what it answers and where it fails, for a raw text of at least one block.
-/

namespace Sys2Proof.Machine

/-- A pad that is whole is removed. -/
theorem stripPadding_append_replicate (plain : List Byte) {p : Nat} (h1 : 1 ≤ p) (h16 : p ≤ 16) :
    stripPadding (plain ++ List.replicate p (BitVec.ofNat 8 p)) = some plain := by
  have hp : (BitVec.ofNat 8 p).toNat = p := Nat.mod_eq_of_lt (by omega)
  have hlast : (plain ++ List.replicate p (BitVec.ofNat 8 p)).getLastD 0 = BitVec.ofNat 8 p := by
    obtain ⟨q, rfl⟩ := Nat.exists_eq_add_of_le' h1
    rw [List.replicate_succ', ← List.append_assoc, List.getLastD_concat]
  simp only [stripPadding, hlast, hp]
  rw [if_neg (by omega), if_pos (by simp [hp])]
  simp

/-- What is removed is a whole pad. -/
theorem eq_append_replicate_of_stripPadding {raw plain : List Byte} (hmod : raw.length % 16 = 0)
    (h : stripPadding raw = some plain) :
    ∃ p, 1 ≤ p ∧ p ≤ 16 ∧ raw = plain ++ List.replicate p (BitVec.ofNat 8 p) := by
  have hpos : 0 < raw.length := List.length_pos_iff.2 (by rintro rfl; simp [stripPadding] at h)
  unfold stripPadding at h
  simp only at h
  generalize (raw.getLastD 0).toNat = p at h
  split_ifs at h with hp hall
  cases h
  refine ⟨p, by omega, by omega, ?_⟩
  have hpad : raw.drop (raw.length - p) = List.replicate p (BitVec.ofNat 8 p) := by
    refine List.eq_replicate_iff.2 ⟨by simp; omega, fun b hb => BitVec.eq_of_toNat_eq ?_⟩
    have := List.all_eq_true.1 hall b hb
    rw [beq_iff_eq.1 this]
    exact (Nat.mod_eq_of_lt (by omega)).symm
  rw [← hpad, List.take_append_drop]

/-- The check of the pad's bytes, by distance from the end of the text. -/
theorem drop_all_eq_true_iff {raw : List Byte} {p : Nat} (hp : p ≤ raw.length) :
    (raw.drop (raw.length - p)).all (fun b => b.toNat == p) = true ↔
      ∀ i, 1 ≤ i → i ≤ p → (raw.getD (raw.length - i) 0).toNat = p := by
  simp only [List.all_eq_true, beq_iff_eq, List.mem_drop_iff_getElem]
  constructor
  · intro h i h1 hi
    rw [List.getD_eq_getElem _ _ (by omega : raw.length - i < raw.length)]
    refine h _ ⟨p - i, by omega, ?_⟩
    congr 1
    omega
  · rintro h _ ⟨j, hj, rfl⟩
    have hbyte := h (p - j) (by omega) (by omega)
    rwa [show raw.length - (p - j) = raw.length - p + j by omega, List.getD_eq_getElem _ _ (by omega)] at hbyte

/-- Padding removal fails on a pad's length out of range, or on a byte it counts that differs from it (R199). -/
theorem stripPadding_eq_none_iff {raw : List Byte} (hlen : 16 ≤ raw.length) :
    stripPadding raw = none ↔
      (raw.getLastD 0).toNat = 0 ∨ 16 < (raw.getLastD 0).toNat ∨
        ∃ i, 1 ≤ i ∧ i ≤ (raw.getLastD 0).toNat ∧
          (raw.getD (raw.length - i) 0).toNat ≠ (raw.getLastD 0).toNat := by
  unfold stripPadding
  simp only
  generalize (raw.getLastD 0).toNat = p
  by_cases hp : p = 0 ∨ 16 < p
  · rw [if_pos hp]
    exact iff_of_true rfl (or_assoc.1 (.inl hp))
  · rw [if_neg hp, ← or_assoc, or_iff_right hp]
    simp only [drop_all_eq_true_iff (by omega : p ≤ raw.length)]
    simp

/-- Settles O30: a whole pad is what is removed, and it is removed. -/
theorem paddingRemovalIsExact : Obligations.PaddingRemovalIsExact := by
  unfold Obligations.PaddingRemovalIsExact
  intro raw plain _ hmod
  refine ⟨eq_append_replicate_of_stripPadding hmod, ?_⟩
  rintro ⟨p, h1, h16, rfl⟩
  exact stripPadding_append_replicate plain h1 h16

/-- Settles O31: the blocks of the padded plaintext come back, and with them the padded plaintext. -/
theorem decryptionUndoesEncryption : Obligations.DecryptionUndoesEncryption := by
  unfold Obligations.DecryptionUndoesEncryption
  intro enc dec h iv plain
  have hwhole : (padded plain).length = 16 * (plain.length / 16 + 1) := by simp [padded]; omega
  rw [chainDecrypt_chainEncrypt h, flatMap_regionBlocks hwhole]
  exact stripPadding_append_replicate plain (by omega) (by omega)

/-- Settles O32: one plaintext from two texts of one length means one pad, so one text, and so one region. -/
theorem tamperedRegionChangesPlaintext : Obligations.TamperedRegionChangesPlaintext := by
  unfold Obligations.TamperedRegionChangesPlaintext
  intro dec hdec iv region tampered plain hlen hmod hne hregion htampered
  obtain ⟨m, hm⟩ : ∃ m, region.length = 16 * m := Nat.dvd_of_mod_eq_zero hmod
  obtain ⟨p, -, -, hraw⟩ := eq_append_replicate_of_stripPadding (by simp) hregion
  obtain ⟨q, -, -, hraw₁⟩ := eq_append_replicate_of_stripPadding (by simp) htampered
  obtain rfl : p = q := by
    have h := congrArg List.length hraw
    have h₁ := congrArg List.length hraw₁
    simp only [chainDecrypt_length, regionBlocks_length, List.length_append, List.length_replicate] at h h₁
    omega
  have hblocks : regionBlocks region = regionBlocks tampered := chainDecrypt_injective hdec (hraw.trans hraw₁.symm)
  refine hne ?_
  rw [← flatMap_regionBlocks hm, hblocks, flatMap_regionBlocks (hlen.symm.trans hm)]

end Sys2Proof.Machine

/-!
DEC.RUN (spec/45_cipher.md R200, R201): its outcomes, and where its decryption fails (spec/60_exceptions.md R272).
-/

namespace Sys2Proof.Machine

/-- CryptoError is entered with no `PT` byte holding a value (R201). -/
theorem exec_decRun_cryptoError {s : State} (hdone : s.done = false) (hbody : decRunBody s = .raise .cryptoError s) :
    exec .decRun s = .next { s.faulting .cryptoError with pt := [], ptEpoch := s.ptEpoch + 1 } := by
  rw [exec_eq_runCommand (by decide), runCommand_ready hdone, bodyOf, hbody, SubStep.finish,
    takeFault_eq_faulting_cryptoError]

/-- Settles O33, by the outcomes of the body; the plaintext fits `PT`, since the region's length is a word. -/
theorem decRunDecryptsRegion : Obligations.DecRunDecryptsRegion := by
  unfold Obligations.DecRunDecryptsRegion
  refine ⟨by decide, fun s hdone => ?_⟩
  rcases decRunBody_cases s with ⟨hmissing, e⟩ | ⟨key, iv, n, hkey, hiv, hn, hcases⟩
  · refine ⟨fun _ => exec_of_body_raise (by decide) hdone (by decide) e, fun _ _ _ hkey hiv hn => ?_⟩
    simp [hkey, hiv, hn] at hmissing
  refine ⟨by simp [State.keyValid, State.ivValid, State.ctValid, hkey, hiv, hn],
    fun _ _ _ hkey₁ hiv₁ hn₁ hle => ?_⟩
  cases hkey.symm.trans hkey₁
  cases hiv.symm.trans hiv₁
  cases hn.symm.trans hn₁
  rcases hcases with ⟨hlt, -⟩ | ⟨-, ⟨hnone, e⟩ | ⟨plain, pt, hplain, hpt, e⟩⟩
  · omega
  · exact ⟨fun _ => ⟨_, exec_decRun_cryptoError hdone e⟩, fun _ hplain => by simp [hnone] at hplain⟩
  · refine ⟨fun hnone => by simp [hplain] at hnone, fun plain₁ hplain₁ => ?_⟩
    cases hplain.symm.trans hplain₁
    obtain ⟨pt₁, hpt₁, -, -, hfind⟩ := memWrite_empty plain (decrypt_region_length_lt hplain).le
    obtain rfl : pt = pt₁ := Option.some.inj (hpt.symm.trans hpt₁)
    exact ⟨pt, _, exec_of_body_done (i := .decRun) (by decide) hdone e, hfind⟩

/-- Where a decryption fails (R196, R197, R199). -/
theorem decrypt_eq_none_iff {cfg : Config} {region : List Byte} {key iv : Block} :
    decrypt cfg region key iv = none ↔
      region.length % 16 ≠ 0 ∨ (region.length = 0 ∧ cfg.emptyCtResult = .fail) ∨
        (region.length % 16 = 0 ∧ region.length ≠ 0 ∧
          stripPadding (chainDecrypt (blockDecrypt cfg.cipher key) iv (regionBlocks region)) = none) := by
  unfold decrypt
  split_ifs with hmod hzero
  · simp [hmod]
  · cases cfg.emptyCtResult <;> simp [hzero]
  · simp [Decidable.not_not.1 hmod, hzero]

/-- Settles O34: DEC.RUN enters CryptoError exactly where the decryption fails, and completes otherwise. -/
theorem cryptoErrorExactly : Obligations.CryptoErrorExactly := by
  unfold Obligations.CryptoErrorExactly
  intro s key iv n hdone hkey hiv hn hle
  have hlen : (s.fileBytes.take n.toNat).length = n.toNat := by
    simpa [State.fileBytes, sequenceOf] using hle
  extract_lets region raw p fails
  have hfails : fails ↔ decrypt s.cfg region key iv = none := by
    have hpad (hmod : n.toNat % 16 = 0) (hzero : n.toNat ≠ 0) := by
      have hraw : raw.length = n.toNat := by simp [raw, region, hlen]; omega
      have := stripPadding_eq_none_iff (raw := raw) (by omega)
      rwa [hraw] at this
    rw [decrypt_eq_none_iff, hlen]
    exact or_congr_right (or_congr_right (and_congr_right fun hmod => and_congr_right fun hzero =>
      (hpad hmod hzero).symm))
  obtain ⟨-, hdecRun⟩ := decRunDecryptsRegion
  obtain ⟨-, hready⟩ := hdecRun s hdone
  obtain ⟨hfail, hcomplete⟩ := hready key iv n hkey hiv hn hle
  refine ⟨fun h => hfail (hfails.1 h), fun h => ?_⟩
  obtain ⟨plain, hplain⟩ := Option.ne_none_iff_exists'.1 (mt hfails.2 h)
  obtain ⟨pt, epoch, hexec, -⟩ := hcomplete plain hplain
  exact ⟨_, hexec, rfl, rfl⟩

end Sys2Proof.Machine

/-!
The AES-128 inverse cipher (spec/46_aes128.md R222 to R231): the bytes, the rows and the columns of a block are each
undone by a forward map, so every round, and the cipher with them, is one-to-one on blocks for every key.
-/

namespace Sys2Proof.Machine

/-! ### Sums of bytes, and the factors of R230 as sums of doublings (R222) -/

theorem xor_left_comm (a b c : Byte) : a ^^^ (b ^^^ c) = b ^^^ (a ^^^ c) := by ac_rfl

theorem xtime_xor (a b : Byte) : xtime (a ^^^ b) = xtime a ^^^ xtime b := by
  simp only [xtime, BitVec.getLsbD_xor, BitVec.shiftLeft_xor_distrib]
  cases a.getLsbD 7 <;> cases b.getLsbD 7 <;> simp [BitVec.xor_assoc, BitVec.xor_comm, xor_left_comm]

@[simp] theorem xtime_zero : xtime 0#8 = 0#8 := by decide

/-- One, two, four and eight times four bytes, summed. -/
def doublings (a b c d : Byte) : Byte :=
  a ^^^ xtime (b ^^^ xtime (c ^^^ xtime d))

theorem doublings_xor (a b c d a' b' c' d' : Byte) :
    doublings a b c d ^^^ doublings a' b' c' d' = doublings (a ^^^ a') (b ^^^ b') (c ^^^ c') (d ^^^ d') := by
  simp only [doublings, xtime_xor]
  ac_rfl

theorem gmul_0E (a : Byte) : gmul a 0x0E = doublings 0#8 a a a := by
  simp [gmul, gmulFrom, doublings, xtime_xor, BitVec.xor_assoc]

theorem gmul_0B (a : Byte) : gmul a 0x0B = doublings a a 0#8 a := by
  simp [gmul, gmulFrom, doublings, xtime_xor, BitVec.xor_assoc]

theorem gmul_0D (a : Byte) : gmul a 0x0D = doublings a 0#8 a a := by
  simp [gmul, gmulFrom, doublings, xtime_xor, BitVec.xor_assoc]

theorem gmul_09 (a : Byte) : gmul a 0x09 = doublings a 0#8 0#8 a := by
  simp [gmul, gmulFrom, doublings]

/-! ### Columns (R230) -/

/-- A byte of `inv_mix_columns` from its column's bytes, which are read from the byte's own row on. -/
def invMixTerm (a b c d : Byte) : Byte :=
  gmul a 0x0E ^^^ gmul b 0x0B ^^^ gmul c 0x0D ^^^ gmul d 0x09

/-- The forward map's byte: 2, 3, 1 and 1 times its column's bytes, which are read from the byte's own row on. -/
def mixTerm (a b c d : Byte) : Byte :=
  xtime (a ^^^ b) ^^^ (b ^^^ c ^^^ d)

theorem invMixTerm_eq_doublings (a b c d : Byte) :
    invMixTerm a b c d = doublings (b ^^^ c ^^^ d) (a ^^^ b) (a ^^^ c) (a ^^^ b ^^^ c ^^^ d) := by
  simp only [invMixTerm, gmul_0E, gmul_0B, gmul_0D, gmul_09, doublings_xor, BitVec.zero_xor, BitVec.xor_zero]

/-- The part of `mixTerm` that is doubled, on a column of `inv_mix_columns`. -/
theorem invMixTerm_xor_next (a b c d : Byte) :
    invMixTerm a b c d ^^^ invMixTerm b c d a = doublings (a ^^^ b) (a ^^^ c) (a ^^^ b ^^^ c ^^^ d) 0#8 := by
  simp only [invMixTerm_eq_doublings, doublings_xor]
  congr 1 <;> simp [BitVec.xor_assoc, BitVec.xor_comm, xor_left_comm]

/-- The part of `mixTerm` that is not doubled, on such a column. -/
theorem invMixTerm_xor_others (a b c d : Byte) :
    invMixTerm b c d a ^^^ invMixTerm c d a b ^^^ invMixTerm d a b c =
      doublings a (a ^^^ b) (a ^^^ c) (a ^^^ b ^^^ c ^^^ d) := by
  simp only [invMixTerm_eq_doublings, doublings_xor]
  congr 1 <;> simp [BitVec.xor_assoc, BitVec.xor_comm, xor_left_comm]

/-- The first part, doubled, is the other but for the byte itself. -/
theorem mixTerm_invMixTerm (a b c d : Byte) :
    mixTerm (invMixTerm a b c d) (invMixTerm b c d a) (invMixTerm c d a b) (invMixTerm d a b c) = a := by
  rw [mixTerm, invMixTerm_xor_next, invMixTerm_xor_others, doublings, doublings, xtime_zero, BitVec.xor_zero,
    xor_left_comm, BitVec.xor_self, BitVec.xor_zero]

/-- The forward map of `inv_mix_columns`: byte by byte from the same column. -/
def mixColumns (s : Block) : Block :=
  .tabulate fun i =>
    let col := 4 * (i / 4)
    mixTerm (s.at (col + i % 4)) (s.at (col + (i + 1) % 4)) (s.at (col + (i + 2) % 4)) (s.at (col + (i + 3) % 4))

theorem mixColumns_invMixColumns : Function.LeftInverse mixColumns invMixColumns := fun s =>
  Block.ext_at fun i hi => by interval_cases i <;> exact mixTerm_invMixTerm ..

/-! ### Rows and bytes (R224, R228) -/

/-- The forward map of `inv_shift_rows`: row `r` is rotated left by `r` columns. -/
def shiftRows (s : Block) : Block :=
  .tabulate fun i => s.at (5 * i % 16)

theorem shiftRows_invShiftRows : Function.LeftInverse shiftRows invShiftRows := fun s =>
  Block.ext_at fun i hi => by interval_cases i <;> rfl

/-- R224: the two tables are inverse to each other. -/
theorem sbox_invSbox : Function.LeftInverse sbox invSbox := by
  unfold Function.LeftInverse
  decide

theorem invSubBytes_injective : Function.Injective invSubBytes := fun s t h =>
  Block.ext_at fun i hi => sbox_invSbox.injective <| by
    simpa only [invSubBytes, Block.at_tabulate _ hi] using congrArg (Block.at · i) h

/-! ### Rounds (R231) -/

theorem addRoundKey_left_injective (k : Block) : Function.Injective (addRoundKey · k) :=
  xorBlock_left_injective k

/-- The steps that a round and the cipher's end share are one-to-one for every round key. -/
theorem addRoundKey_invSubBytes_invShiftRows_injective (k : Block) :
    Function.Injective fun s => addRoundKey (invSubBytes (invShiftRows s)) k :=
  (addRoundKey_left_injective k).comp (invSubBytes_injective.comp shiftRows_invShiftRows.injective)

theorem invRound_left_injective (k : Block) : Function.Injective (invRound · k) :=
  mixColumns_invMixColumns.injective.comp (addRoundKey_invSubBytes_invShiftRows_injective k)

theorem invRounds_injective (key : Block) (n : Nat) : Function.Injective (invRounds key n) := by
  induction n with
  | zero => exact Function.injective_id
  | succ n ih => exact ih.comp (invRound_left_injective (roundKey key (n + 1)))

/-- Settles O36: adding round key 10, the nine rounds and the last one without its columns are all one-to-one. -/
theorem aesInverseCipherInjective : Obligations.AesInverseCipherInjective := by
  unfold Obligations.AesInverseCipherInjective
  intro key
  exact (addRoundKey_invSubBytes_invShiftRows_injective (roundKey key 0)).comp
    ((invRounds_injective key 9).comp (addRoundKey_left_injective (roundKey key 10)))

end Sys2Proof.Machine

/-!
Control (spec/47_control.md): the sequencer outside and inside RUNNING (R250), HALT (R251), the single-shot check
(R275), and the bound on a run (R254).
-/

namespace Sys2Proof.Machine

/-- Settles O5. -/
theorem stepExecutesDecodedCommand : Obligations.StepExecutesDecodedCommand := by
  unfold Obligations.StepExecutesDecodedCommand
  intro s w i hr hw hdecode
  rw [step_running hr, fetch_word hw, decodeFetched, hdecode]

/-- Settles O8: the single-shot check comes before the body of any command that has one. -/
theorem afterDoneOnlyHaltRuns : Obligations.AfterDoneOnlyHaltRuns := by
  unfold Obligations.AfterDoneOnlyHaltRuns
  intro s i hdone
  refine ⟨fun hi => ?_, exec_halt s⟩
  rw [exec_eq_runCommand hi, runCommand_done hdone, takeFault_eq_faulting s (by decide)]

/-- Settles O9. -/
theorem stepOutsideRunningDoesNothing : Obligations.StepOutsideRunningDoesNothing :=
  fun _ => step_stopped

/-- Settles O37: `HALT` leaves RUNNING, and outside RUNNING nothing is fetched. -/
theorem haltEndsRun : Obligations.HaltEndsRun :=
  ⟨by decide, fun s => ⟨exec_halt s, step_stopped (by simp)⟩⟩

/-! ### The bound on a run -/

/-- A run that answers a next state answered one at its first step. -/
theorem run_succ_next {M : Host.Core} {k : Nat} {s t : M.State} (h : M.run (k + 1) s = .next t) :
    ∃ u, M.step s = .next u ∧ M.run k u = .next t := by
  rw [Host.Core.run] at h
  cases hstep : M.step s with
  | next u => exact ⟨u, rfl, by rwa [hstep] at h⟩
  | fault r => simp [hstep] at h
  | refused r => simp [hstep] at h

/-- A run from where a run has ended stays there (R250). -/
theorem core_run_ended {s : State} (h : s.ended = true) (k : Nat) : Sys2Proof.core.run k s = .next s := by
  have hstop : s.state ≠ .running := by
    intro hr
    simp [State.ended, hr] at h
  induction k with
  | zero => rfl
  | succ k ih => exact (core_run_succ k (step_stopped hstop)).trans ih

/-- A step in RUNNING ends the run, or uses up one of the commands left and keeps on running. -/
theorem RunningStep.ended_or_advanced {s t : State} (hr : s.state = .running) (h : RunningStep s t) :
    t.ended = true ∨ t.state = .running ∧
      t.launch.cmdLen.toNat - t.cp.toNat + 1 = s.launch.cmdLen.toNat - s.cp.toNat := by
  cases h with
  | halted => exact .inl rfl
  | faulted => exact .inl (by simp [State.ended])
  | completed hw _ _ _ hkeeps =>
    obtain ⟨hstate, hcp, -, -, hlaunch, -⟩ := hkeeps
    obtain ⟨hlt, -⟩ := cmdWords_getElem? hw
    refine .inr ⟨hstate.trans hr, ?_⟩
    rw [State.advance_cp, State.advance_launch, hcp, hlaunch]
    bv_omega

/-- A run of `k + 1` steps from RUNNING is a step in RUNNING and a run of `k`. -/
theorem core_run_succ_running {k : Nat} {s t : State} (hr : s.state = .running)
    (h : Sys2Proof.core.run (k + 1) s = .next t) : ∃ u, RunningStep s u ∧ Sys2Proof.core.run k u = .next t := by
  obtain ⟨u, hstep, hrun⟩ := run_succ_next h
  obtain ⟨hne, -⟩ | ⟨-, hrunning⟩ := step_next_cases hstep
  · exact absurd hr hne
  · exact ⟨u, hrunning, hrun⟩

/-- Settles O12, by induction on the number of commands left: with none left a step ends the run, and a run that has
ended stays where it is. -/
theorem runEndsWithinCommandsLeft : Obligations.RunEndsWithinCommandsLeft := by
  unfold Obligations.RunEndsWithinCommandsLeft
  intro s t hr h
  generalize hleft : s.launch.cmdLen.toNat - s.cp.toNat = left at h
  induction left generalizing s with
  | zero =>
    obtain ⟨u, hstep, hrun⟩ := core_run_succ_running hr h
    cases hrun
    obtain hended | ⟨-, hfewer⟩ := hstep.ended_or_advanced hr
    · exact hended
    · omega
  | succ left ih =>
    obtain ⟨u, hstep, hrun⟩ := core_run_succ_running hr h
    obtain hended | ⟨hr', hfewer⟩ := hstep.ended_or_advanced hr
    · cases (core_run_ended hended _).symm.trans hrun
      exact hended
    · exact ih u hr' (by omega) hrun

end Sys2Proof.Machine

/-!
SUPPORT. The bodies of commands in sequence, the way RUN executes them (spec/47_control.md R252), and the outcomes of
the bodies in RUN under the conditions the claims state them with.
-/

namespace Sys2Proof.Machine

/-! ### Bodies in sequence -/

theorem SubStep.andThen_assoc (r : SubStep) (f g : State → SubStep) :
    (r.andThen f).andThen g = r.andThen fun s => (f s).andThen g := by
  cases r <;> rfl

theorem SubStep.andThen_done_right (r : SubStep) : r.andThen .done = r := by
  cases r <;> rfl

/-- The bodies of commands one after another, with no `CP` advance and no fault entry between them. -/
def seqBody : List Instr → State → SubStep
  | [], s => .done s
  | i :: is, s => (bodyOf i s).andThen (seqBody is)

/-- RUN is the bodies of the commands that the pseudo-command DECRYPT expands to (R97, R252). -/
theorem runBody_eq_seqBody (s : State) : runBody s = seqBody (expandLine .decrypt) s := by
  simp only [runBody, SubStep.andThen_assoc, expandLine, seqBody, bodyOf, SubStep.andThen_done_right]

section
variable {i : Instr} {is : List Instr} {s t : State} {c : Cause}

theorem seqBody_done (h : bodyOf i s = .done t) : seqBody (i :: is) s = seqBody is t :=
  SubStep.andThen_done h _

theorem seqBody_raise (h : bodyOf i s = .raise c t) : seqBody (i :: is) s = .raise c t :=
  SubStep.andThen_raise h _

theorem seqBody_singleton : seqBody [i] s = bodyOf i s :=
  SubStep.andThen_done_right _

theorem seqBody_cons_eq_done (h : seqBody (i :: is) s = .done t) :
    ∃ u, bodyOf i s = .done u ∧ seqBody is u = .done t := by
  rcases SubStep.andThen_cases (bodyOf i s) (seqBody is) with ⟨u, hu, e⟩ | ⟨_, _, -, e⟩ | ⟨_, -, e⟩
  · exact ⟨u, hu, e.symm.trans h⟩
  · cases e.symm.trans h
  · cases e.symm.trans h

end

/-! ### The sub-steps of RUN, outcome by outcome -/

section
variable {s : State}

theorem crcIdBody_of_seedValid (hseed : s.seedValid = true) : crcIdBody s = .raise .sequenceFault s := by
  obtain ⟨v, hv⟩ := Option.isSome_iff_exists.1 hseed
  simpa [hv] using crcIdBody_cases s

theorem crcIdBody_of_nonAscii (hseed : s.seed = none) (hcheck : s.cfg.idAsciiCheck = true)
    (hbyte : ∃ b ∈ s.idBytes, 0x7F < b) : crcIdBody s = .raise .idNotAscii s := by
  simpa [hseed, idScan_eq_true_iff.2 ⟨hcheck, hbyte⟩] using crcIdBody_cases s

/-- The scan of R126 passes where the check is off or every byte of the identifier is ASCII. -/
theorem idScan_eq_false_iff :
    (s.cfg.idAsciiCheck && s.idBytes.any nonAscii) = false ↔
      (s.cfg.idAsciiCheck = true → ∀ b ∈ s.idBytes, ¬ 0x7F < b) := by
  rw [Bool.eq_false_iff, ne_eq, idScan_eq_true_iff]
  simp

theorem crcIdBody_of_ascii (hseed : s.seed = none)
    (hascii : s.cfg.idAsciiCheck = true → ∀ b ∈ s.idBytes, ¬ 0x7F < b) :
    crcIdBody s = .done { s with seed := some (checksum s.idBytes), crcAcc := none } := by
  simpa [hseed, idScan_eq_false_iff.2 hascii] using crcIdBody_cases s

theorem rngSeedBody_of_rngValid (hrng : s.rngValid = true) : rngSeedBody s = .raise .sequenceFault s := by
  obtain ⟨w, hw⟩ := Option.isSome_iff_exists.1 hrng
  simpa [hw] using rngSeedBody_cases s

theorem rngSeedBody_of_seed {v : Word} (hseed : s.seed = some v) (hw : s.w = none) :
    rngSeedBody s = .done { s with w := some (rngSeed v) } := by
  simpa [hseed, hw] using rngSeedBody_cases s

theorem kdfKeyBody_of_keyValid (hkey : s.keyValid = true) : kdfKeyBody s = .raise .sequenceFault s := by
  obtain ⟨k, hk⟩ := Option.isSome_iff_exists.1 hkey
  simpa [hk] using kdfKeyBody_cases s

theorem kdfIvBody_of_ivValid (hiv : s.ivValid = true) : kdfIvBody s = .raise .sequenceFault s := by
  obtain ⟨v, hv⟩ := Option.isSome_iff_exists.1 hiv
  simpa [hv] using kdfIvBody_cases s

section
variable {w w' : Words} {bytes : Block} (hw : s.w = some w)
include hw

theorem kdfKeyBody_of_derive_none (hkey : s.key = none) (hderive : deriveSequence s.cfg.kmtRom w = none) :
    kdfKeyBody s = .raise .kdfParseError s := by
  simpa [hw, hkey, hderive] using kdfKeyBody_cases s

theorem kdfKeyBody_of_derive (hkey : s.key = none) (hderive : deriveSequence s.cfg.kmtRom w = some (bytes, w')) :
    kdfKeyBody s = .done { s with key := some bytes, w := some w' } := by
  simpa [hw, hkey, hderive] using kdfKeyBody_cases s

theorem kdfIvBody_of_derive_none {key : Block} (hkey : s.key = some key) (hiv : s.iv = none)
    (hderive : deriveSequence s.cfg.kmtRom w = none) : kdfIvBody s = .raise .kdfParseError s := by
  simpa [hw, hkey, hiv, hderive] using kdfIvBody_cases s

theorem kdfIvBody_of_derive {key : Block} (hkey : s.key = some key) (hiv : s.iv = none)
    (hderive : deriveSequence s.cfg.kmtRom w = some (bytes, w')) :
    kdfIvBody s = .done { s with iv := some bytes, w := some w' } := by
  simpa [hw, hkey, hiv, hderive] using kdfIvBody_cases s

end

theorem frmParseBody_of_ctValid (hct : s.ctValid = true) : frmParseBody s = .raise .sequenceFault s := by
  obtain ⟨n, hn⟩ := Option.isSome_iff_exists.1 hct
  simpa [hn] using frmParseBody_cases s

theorem frmParseBody_of_marker (hct : s.ctLen = none) (h8 : 8 ≤ s.launch.fileLen.toNat)
    (hmarker : s.fileBytes.drop (s.launch.fileLen.toNat - 8) = magicBytes) :
    frmParseBody s = .done { s with ctLen := some (s.launch.fileLen - 8) } := by
  simpa [hct, h8, h8.not_gt, (State.trailer_eq_magic_iff h8).2 hmarker] using frmParseBody_cases s

theorem frmParseBody_of_not_marker (hct : s.ctLen = none)
    (hbad : s.launch.fileLen.toNat < 8 ∨ s.fileBytes.drop (s.launch.fileLen.toNat - 8) ≠ magicBytes) :
    frmParseBody s = .raise .formatError s := by
  rcases frmParseBody_cases s with ⟨h, -⟩ | ⟨-, -, e⟩ | ⟨-, h8, hmagic, -⟩
  · simp [hct] at h
  · exact e
  · rcases hbad with hlt | hne
    · omega
    · exact absurd ((State.trailer_eq_magic_iff h8).1 hmagic) hne

/-- The length of the region that FRM.PARSE records. -/
theorem toNat_fileLen_sub_eight {n : Word} (h8 : 8 ≤ n.toNat) : (n - 8).toNat = n.toNat - 8 := by
  bv_omega

theorem decRunBody_of_decrypt_none {key iv : Block} {n : Word} (hkey : s.key = some key) (hiv : s.iv = some iv)
    (hn : s.ctLen = some n) (hle : n.toNat ≤ s.launch.fileLen.toNat)
    (hdecrypt : decrypt s.cfg (s.fileBytes.take n.toNat) key iv = none) :
    decRunBody s = .raise .cryptoError s := by
  simpa [hkey, hiv, hn, hle.not_gt, hle, hdecrypt] using decRunBody_cases s

end

/-! ### What a sub-step of RUN that is done has found and left -/

section
variable {s t : State}

theorem crcIdBody_eq_done (h : crcIdBody s = .done t) :
    s.seed = none ∧ (s.cfg.idAsciiCheck = true → ∀ b ∈ s.idBytes, ¬ 0x7F < b) ∧
      t = { s with seed := some (checksum s.idBytes), crcAcc := none } := by
  rcases crcIdBody_cases s with ⟨-, e⟩ | ⟨-, -, e⟩ | ⟨hseed, hscan, e⟩ <;> cases e.symm.trans h
  exact ⟨hseed, idScan_eq_false_iff.1 hscan, rfl⟩

theorem rngSeedBody_eq_done (h : rngSeedBody s = .done t) :
    ∃ v, s.seed = some v ∧ s.w = none ∧ t = { s with w := some (rngSeed v) } := by
  rcases rngSeedBody_cases s with ⟨-, e⟩ | ⟨v, hseed, hw, e⟩ <;> cases e.symm.trans h
  exact ⟨v, hseed, hw, rfl⟩

theorem kdfKeyBody_eq_done (h : kdfKeyBody s = .done t) :
    ∃ w key w', s.w = some w ∧ s.key = none ∧ deriveSequence s.cfg.kmtRom w = some (key, w') ∧
      t = { s with key := some key, w := some w' } := by
  rcases kdfKeyBody_cases s with ⟨-, e⟩ | ⟨_, -, -, -, e⟩ | ⟨w, key, w', hw, hkey, hderive, e⟩ <;>
    cases e.symm.trans h
  exact ⟨w, key, w', hw, hkey, hderive, rfl⟩

theorem kdfIvBody_eq_done (h : kdfIvBody s = .done t) :
    ∃ w iv w', s.w = some w ∧ s.iv = none ∧ deriveSequence s.cfg.kmtRom w = some (iv, w') ∧
      t = { s with iv := some iv, w := some w' } := by
  rcases kdfIvBody_cases s with ⟨-, e⟩ | ⟨_, -, -, -, -, e⟩ | ⟨w, iv, w', hw, -, hiv, hderive, e⟩ <;>
    cases e.symm.trans h
  exact ⟨w, iv, w', hw, hiv, hderive, rfl⟩

theorem frmParseBody_eq_done (h : frmParseBody s = .done t) :
    s.ctLen = none ∧ 8 ≤ s.launch.fileLen.toNat ∧
      s.fileBytes.drop (s.launch.fileLen.toNat - 8) = magicBytes ∧
      t = { s with ctLen := some (s.launch.fileLen - 8) } := by
  rcases frmParseBody_cases s with ⟨-, e⟩ | ⟨-, -, e⟩ | ⟨hct, h8, hmagic, e⟩ <;> cases e.symm.trans h
  exact ⟨hct, h8, (State.trailer_eq_magic_iff h8).1 hmagic, rfl⟩

theorem decRunBody_eq_done (h : decRunBody s = .done t) :
    ∃ key iv n plain pt, s.key = some key ∧ s.iv = some iv ∧ s.ctLen = some n ∧
      decrypt s.cfg (s.fileBytes.take n.toNat) key iv = some plain ∧ memWrite [] 0 plain = some pt ∧
      t = s.completeDecryption plain pt := by
  rcases decRunBody_cases s with
    ⟨-, e⟩ | ⟨key, iv, n, hkey, hiv, hn, ⟨-, e⟩ | ⟨-, ⟨-, e⟩ | ⟨plain, pt, hdecrypt, hpt, e⟩⟩⟩ <;>
    cases e.symm.trans h
  exact ⟨key, iv, n, plain, pt, hkey, hiv, hn, hdecrypt, hpt, rfl⟩

end

end Sys2Proof.Machine

/-!
RUN (spec/47_control.md R252, R253; spec/60_exceptions.md R277): how far it gets under which conditions, where it
completes, and the first fault it meets otherwise.
-/

namespace Sys2Proof.Machine

/-! ### How far RUN gets

The state after each sub-step that completes, and what of RUN is left to do there. -/

/-- The state after CRC.ID in RUN. -/
def State.seeded (s : State) : State :=
  { s with seed := some (checksum s.idBytes), crcAcc := none }

/-- The state after RNG.SEED in RUN. -/
def State.generated (s : State) : State :=
  { s.seeded with w := some (rngSeed (checksum s.idBytes)) }

/-- The state after KDF.KEY in RUN, the key and the words after it being `key` and `w`. -/
def State.keyed (s : State) (key : Block) (w : Words) : State :=
  { s.generated with key := some key, w := some w }

/-- The state after KDF.IV in RUN, the key, the IV and the words after them being `key`, `iv` and `w`. -/
def State.derived (s : State) (key iv : Block) (w : Words) : State :=
  { s.keyed key w with iv := some iv }

/-- The state after FRM.PARSE in RUN. -/
def State.parsed (s : State) (key iv : Block) (w : Words) : State :=
  { s.derived key iv w with ctLen := some (s.launch.fileLen - 8) }

section
variable {s : State} {key iv : Block} {w1 w2 : Words} (hseed : s.seed = none)
  (hascii : s.cfg.idAsciiCheck = true → ∀ b ∈ s.idBytes, ¬ 0x7F < b)
include hseed hascii

theorem runBody_seeded : runBody s = seqBody [.rngSeed, .kdfKey, .kdfIv, .frmParse, .decRun] s.seeded :=
  (runBody_eq_seqBody s).trans (seqBody_done (crcIdBody_of_ascii hseed hascii))

variable (hw : s.w = none)
include hw

theorem runBody_generated : runBody s = seqBody [.kdfKey, .kdfIv, .frmParse, .decRun] s.generated :=
  (runBody_seeded hseed hascii).trans (seqBody_done (rngSeedBody_of_seed rfl hw))

variable (hkey : s.key = none)
  (hderiveKey : deriveSequence s.cfg.kmtRom (rngSeed (checksum s.idBytes)) = some (key, w1))
include hkey hderiveKey

theorem runBody_keyed : runBody s = seqBody [.kdfIv, .frmParse, .decRun] (s.keyed key w1) :=
  (runBody_generated hseed hascii hw).trans (seqBody_done (kdfKeyBody_of_derive rfl hkey hderiveKey))

variable (hiv : s.iv = none) (hderiveIv : deriveSequence s.cfg.kmtRom w1 = some (iv, w2))
include hiv hderiveIv

theorem runBody_derived : runBody s = seqBody [.frmParse, .decRun] (s.derived key iv w2) :=
  (runBody_keyed hseed hascii hw hkey hderiveKey).trans (seqBody_done (kdfIvBody_of_derive rfl rfl hiv hderiveIv))

variable (hct : s.ctLen = none) (h8 : 8 ≤ s.launch.fileLen.toNat)
  (hmarker : s.fileBytes.drop (s.launch.fileLen.toNat - 8) = magicBytes)
include hct h8 hmarker

theorem runBody_parsed : runBody s = seqBody [.decRun] (s.parsed key iv w2) :=
  (runBody_derived hseed hascii hw hkey hderiveKey hiv hderiveIv).trans
    (seqBody_done (frmParseBody_of_marker hct h8 hmarker))

end

/-! ### Completing -/

/-- The inputs and the values of a RUN that completes (R252). -/
structure PipelineCompletes (s : State) (key iv : Block) (w1 w2 : Words) (plain : List Byte) : Prop where
  seed_eq   : s.seed = none
  w_eq      : s.w = none
  key_eq    : s.key = none
  iv_eq     : s.iv = none
  ctLen_eq  : s.ctLen = none
  ascii     : s.cfg.idAsciiCheck = true → ∀ b ∈ s.idBytes, ¬ 0x7F < b
  deriveKey : deriveSequence s.cfg.kmtRom (rngSeed (checksum s.idBytes)) = some (key, w1)
  deriveIv  : deriveSequence s.cfg.kmtRom w1 = some (iv, w2)
  atLeast8  : 8 ≤ s.launch.fileLen.toNat
  marker    : s.fileBytes.drop (s.launch.fileLen.toNat - 8) = magicBytes
  decrypts  : decrypt s.cfg (s.fileBytes.take (s.launch.fileLen.toNat - 8)) key iv = some plain

/-- The state after the whole pipeline: what it made but the plaintext and `CT_LEN` is discarded (R252). -/
def State.pipelineDone (s : State) (plain : List Byte) (pt : ByteMemory) : State :=
  State.completeDecryption { s with crcAcc := none, ctLen := some (s.launch.fileLen - 8) } plain pt

theorem runBody_done {s : State} {key iv : Block} {w1 w2 : Words} {plain : List Byte}
    (h : PipelineCompletes s key iv w1 w2 plain) :
    ∃ pt, memWrite [] 0 plain = some pt ∧ runBody s = .done (s.pipelineDone plain pt) := by
  have hlen : (s.launch.fileLen - 8).toNat = s.launch.fileLen.toNat - 8 := toNat_fileLen_sub_eight h.atLeast8
  obtain ⟨pt, hpt, hbody⟩ := decRunBody_done (s := s.parsed key iv w2) (n := s.launch.fileLen - 8) rfl rfl rfl
    (hlen.trans_le (Nat.sub_le _ _)) (hlen ▸ h.decrypts)
  refine ⟨pt, hpt, ?_⟩
  rw [runBody_parsed h.seed_eq h.ascii h.w_eq h.key_eq h.deriveKey h.iv_eq h.deriveIv h.ctLen_eq h.atLeast8 h.marker,
    seqBody_singleton]
  exact hbody

/-- Settles O38: the values RUN discards are the ones that held none before it. -/
theorem runCompletes : Obligations.RunCompletes := by
  unfold Obligations.RunCompletes
  intro s key iv w1 w2 plain hdone hseed hw hkey hiv hct hascii hderiveKey hderiveIv h8 hmarker hdecrypt
  obtain ⟨pt, hpt, hbody⟩ := runBody_done
    ⟨hseed, hw, hkey, hiv, hct, hascii, hderiveKey, hderiveIv, h8, hmarker, hdecrypt⟩
  refine ⟨pt, s.ptEpoch + 1, ?_, ?_⟩
  · rw [exec_of_body_done (i := .run) (by decide) hdone hbody]
    simp [State.advance, State.pipelineDone, State.completeDecryption, State.discard, hseed, hw, hkey, hiv]
  · have hlen : plain.length < 2 ^ 32 := by
      rw [← toNat_fileLen_sub_eight h8] at hdecrypt
      exact decrypt_region_length_lt hdecrypt
    obtain ⟨pt', hpt', -, -, hfind⟩ := memWrite_empty plain hlen.le
    obtain rfl : pt' = pt := Option.some.inj (hpt'.symm.trans hpt)
    exact hfind

/-! ### The first fault -/

/-- RUN enters the fault that the sub-step it has reached raises, in the state it has reached. -/
theorem exec_run_of_raise {s u : State} {i : Instr} {is : List Instr} {c : Cause} (hdone : s.done = false)
    (hreached : runBody s = seqBody (i :: is) u) (hraise : bodyOf i u = .raise c u) (hc : c ≠ .cryptoError) :
    exec .run s = .next (u.faulting c) :=
  exec_of_body_raise (i := .run) (by decide) hdone hc (hreached.trans (seqBody_raise hraise))

/-- RUN enters CryptoError with no `PT` byte holding a value (R201). -/
theorem exec_run_cryptoError {s u : State} (hdone : s.done = false) (hbody : runBody s = .raise .cryptoError u) :
    exec .run s = .next { u.faulting .cryptoError with pt := [], ptEpoch := u.ptEpoch + 1 } := by
  rw [exec_eq_runCommand (by decide), runCommand_ready hdone, bodyOf, hbody, SubStep.finish,
    takeFault_eq_faulting_cryptoError]

/-- Settles O44: RUN has got as far as the sub-step that faults, by the lemmas above, and that sub-step raises. -/
theorem runReportsFirstFault : Obligations.RunReportsFirstFault := by
  unfold Obligations.RunReportsFirstFault
  intro s hdone
  have hcrcId := runBody_eq_seqBody s
  refine ⟨fun hseed => exec_run_of_raise hdone hcrcId (crcIdBody_of_seedValid hseed) (by decide),
    fun hseed hcheck hbyte => exec_run_of_raise hdone hcrcId (crcIdBody_of_nonAscii hseed hcheck hbyte) (by decide),
    fun hseed hascii => ?_⟩
  have hrngSeed := runBody_seeded hseed hascii
  refine ⟨fun hrng => exec_run_of_raise hdone hrngSeed (rngSeedBody_of_rngValid hrng) (by decide), fun hw => ?_⟩
  have hkdfKey := runBody_generated hseed hascii hw
  refine ⟨fun hkey => exec_run_of_raise hdone hkdfKey (kdfKeyBody_of_keyValid hkey) (by decide), fun hkey =>
    ⟨fun hnone => exec_run_of_raise hdone hkdfKey (kdfKeyBody_of_derive_none rfl hkey hnone) (by decide),
      fun key w1 hderiveKey => ?_⟩⟩
  have hkdfIv := runBody_keyed hseed hascii hw hkey hderiveKey
  refine ⟨fun hiv => exec_run_of_raise hdone hkdfIv (kdfIvBody_of_ivValid hiv) (by decide), fun hiv =>
    ⟨fun hnone => exec_run_of_raise hdone hkdfIv (kdfIvBody_of_derive_none rfl rfl hiv hnone) (by decide),
      fun iv w2 hderiveIv => ?_⟩⟩
  have hfrmParse := runBody_derived hseed hascii hw hkey hderiveKey hiv hderiveIv
  refine ⟨fun hct => exec_run_of_raise hdone hfrmParse (frmParseBody_of_ctValid hct) (by decide), fun hct =>
    ⟨fun hbad => exec_run_of_raise hdone hfrmParse (frmParseBody_of_not_marker hct hbad) (by decide),
      fun h8 hmarker hdecrypt => ?_⟩⟩
  have hdecRun := runBody_parsed hseed hascii hw hkey hderiveKey hiv hderiveIv hct h8 hmarker
  have hlen := toNat_fileLen_sub_eight h8
  have hraise : decRunBody (s.parsed key iv w2) = .raise .cryptoError (s.parsed key iv w2) :=
    decRunBody_of_decrypt_none rfl rfl rfl (hlen.trans_le (Nat.sub_le _ _)) (hlen ▸ hdecrypt)
  exact ⟨_, exec_run_cryptoError hdone (hdecRun.trans (seqBody_raise hraise))⟩

end Sys2Proof.Machine

/-!
RUN and sequences of the commands it is made of (spec/47_control.md R253, R256): no body reads `CP`, so commands
executed one after another do what their bodies in sequence do, but for `CP` and the `CP` that a fault records.
-/

namespace Sys2Proof.Machine

/-! ### No body reads `CP` -/

/-- The state with another `CP`. -/
def State.withCp (s : State) (cp : BitVec 16) : State :=
  { s with cp := cp }

theorem State.advance_eq_withCp (s : State) : s.advance = s.withCp (s.cp + 1) := rfl

/-- The result of a body with another `CP` in its state. -/
def SubStep.withCp (r : SubStep) (cp : BitVec 16) : SubStep :=
  match r with
  | .done s => .done (s.withCp cp)
  | .raise c s => .raise c (s.withCp cp)
  | .stuck f => .stuck f

section
variable {α : Type} {s : State} {cp : BitVec 16} {v : Option α} {r r' : SubStep} {body body' : α → SubStep}

theorem requireValue_withCp (h : ∀ x, body' x = (body x).withCp cp) :
    requireValue v (s.withCp cp) body' = (requireValue v s body).withCp cp := by
  cases v with
  | none => rfl
  | some x => exact h x

theorem requireNone_withCp (h : r' = r.withCp cp) :
    requireNone v (s.withCp cp) r' = (requireNone v s r).withCp cp := by
  cases v with
  | none => exact h
  | some x => rfl

theorem withAccess_withCp (h : ∀ x, body' x = (body x).withCp cp) :
    withAccess v body' = (withAccess v body).withCp cp := by
  cases v with
  | none => rfl
  | some x => exact h x

theorem ite_withCp {p : Prop} [Decidable p] {q q' : SubStep} (hr : r' = r.withCp cp) (hq : q' = q.withCp cp) :
    (if p then r' else q') = (if p then r else q).withCp cp := by
  split
  · exact hr
  · exact hq

theorem SubStep.withCp_andThen {next : State → SubStep} (h : ∀ t, next (t.withCp cp) = (next t).withCp cp) :
    (r.withCp cp).andThen next = (r.andThen next).withCp cp := by
  cases r with
  | done t => exact h t
  | raise c t => rfl
  | stuck f => rfl

end

section
variable (s : State) (cp : BitVec 16)

theorem decRunBody_withCp : decRunBody (s.withCp cp) = (decRunBody s).withCp cp := by
  refine requireValue_withCp fun key => requireValue_withCp fun iv => requireValue_withCp fun n =>
    withAccess_withCp fun region => ?_
  cases h : decrypt s.cfg region key iv with
  | none => simp [State.withCp, SubStep.withCp, h]
  | some plain =>
    simp only [State.withCp, h]
    exact withAccess_withCp fun _ => rfl

/-- A body begun at another `CP` does the same, at that `CP`. -/
theorem bodyOf_withCp {i : Instr} (hrun : i ≠ .run) : bodyOf i (s.withCp cp) = (bodyOf i s).withCp cp := by
  cases i with
  | run => exact absurd rfl hrun
  | halt | crcInit => rfl
  | crcUpd b => exact requireValue_withCp fun _ => rfl
  | crcFin => exact requireValue_withCp fun _ => requireNone_withCp rfl
  | crcId => exact requireNone_withCp (withAccess_withCp fun _ => ite_withCp rfl rfl)
  | rngSeed => exact requireValue_withCp fun _ => requireNone_withCp rfl
  | rngNext => exact requireValue_withCp fun _ => rfl
  | kdfKey =>
    refine requireValue_withCp fun w => requireNone_withCp ?_
    cases h : deriveSequence s.cfg.kmtRom w <;> simp [State.withCp, SubStep.withCp, h]
  | kdfIv =>
    refine requireValue_withCp fun w => requireValue_withCp fun _ => requireNone_withCp ?_
    cases h : deriveSequence s.cfg.kmtRom w <;> simp [State.withCp, SubStep.withCp, h]
  | frmParse => exact requireNone_withCp (ite_withCp rfl (withAccess_withCp fun _ => ite_withCp rfl rfl))
  | decRun => exact decRunBody_withCp s cp

end

/-- Bodies in sequence begun at another `CP` do the same, at that `CP`. -/
theorem seqBody_withCp {is : List Instr} (his : ∀ i ∈ is, i ≠ .run) (s : State) (cp : BitVec 16) :
    seqBody is (s.withCp cp) = (seqBody is s).withCp cp := by
  induction is generalizing s with
  | nil => rfl
  | cons i is ih =>
    obtain ⟨hi, his⟩ := List.forall_mem_cons.1 his
    rw [seqBody, seqBody, bodyOf_withCp s cp hi]
    exact SubStep.withCp_andThen (ih his)

/-! ### Commands executed one after another -/

/-- What commands executed one after another answer, by the result of their bodies in sequence: `cp` is the `CP` they
complete at, and `faultCp` the one they had reached where a command raised a fault. -/
inductive Executes (cp : BitVec 16) : SubStep → Outcome → Prop where
  | completed (u : State) : Executes cp (.done u) (.next (u.withCp cp))
  | faulted (c : Cause) (u : State) (faultCp : BitVec 16) :
      Executes cp (.raise c u) (.next ((u.withCp faultCp).takeFault c))
  | stuck (f : Fault) : Executes cp (.stuck f) (.fault f)

/-- The `CP` that the bodies began at does not matter. -/
theorem Executes.of_withCp {cp cp' : BitVec 16} {r : SubStep} {o : Outcome} (h : Executes cp (r.withCp cp') o) :
    Executes cp r o := by
  cases r with
  | done u =>
    cases h
    exact .completed u
  | raise c u =>
    cases h
    exact .faulted c u _
  | stuck f =>
    cases h
    exact .stuck f

/-- Whether or not the last command faults, the sequence ends with it. -/
theorem execSeq_singleton (i : Instr) (s : State) : execSeq [i] s = exec i s := by
  cases h : exec i s <;> simp [execSeq, h]

section
variable {i : Instr} {s t : State}

theorem execSeq_cons_faulted (h : exec i s = .next t) (ht : t.state = .faulted) (is : List Instr) :
    execSeq (i :: is) s = .next t := by
  simp [execSeq, h, ht]

theorem execSeq_cons_stuck {f : Fault} (h : exec i s = .fault f) (is : List Instr) :
    execSeq (i :: is) s = .fault f := by
  simp [execSeq, h]

end

/-- A sequence whose last command alone decrypts does what its bodies do in sequence: `DONE` stays 0 before that
command, so no single-shot check of it fails (R250). -/
theorem execSeq_executes {is : List Instr} (his : ∀ i ∈ is, i ≠ .halt ∧ i ≠ .run ∧ i ≠ .decRun) {s : State}
    (hdone : s.done = false) (hstate : s.state ≠ .faulted) :
    Executes (s.cp + BitVec.ofNat 16 (is.length + 1)) (seqBody (is ++ [.decRun]) s)
      (execSeq (is ++ [.decRun]) s) := by
  induction is generalizing s with
  | nil =>
    rw [List.nil_append, seqBody_singleton, execSeq_singleton, exec_eq_runCommand (by decide), runCommand_ready hdone]
    cases h : bodyOf .decRun s with
    | done u =>
      obtain ⟨-, hcp, -⟩ := bodyOf_keeps .decRun s u h
      rw [← hcp]
      exact .completed u
    | raise c u => exact .faulted c u u.cp
    | stuck f => exact .stuck f
  | cons i is ih =>
    obtain ⟨⟨hhalt, hrun, hdec⟩, his⟩ := List.forall_mem_cons.1 his
    have hexec : exec i s = (bodyOf i s).finish := by rw [exec_eq_runCommand hhalt, runCommand_ready hdone]
    rw [List.cons_append]
    cases h : bodyOf i s with
    | done u =>
      obtain ⟨hstate', hcp, -⟩ := bodyOf_keeps i s u h
      obtain ⟨-, -, -, hdone'⟩ := (bodyOf_preserves_plaintext hrun hdec s s (.rfl' s)).of_eq_done h
      have hu : u.advance.state ≠ .faulted := hstate'.trans_ne hstate
      have hlast : u.advance.cp + BitVec.ofNat 16 (is.length + 1) = s.cp + BitVec.ofNat 16 (is.length + 1 + 1) := by
        rw [State.advance_cp, hcp, BitVec.ofNat_add _ 1]
        bv_omega
      have hnext := ih his (s := u.advance) (hdone'.trans hdone) hu
      have hrest : ∀ j ∈ is ++ [.decRun], j ≠ Instr.run :=
        List.forall_mem_append.2 ⟨fun j hj => have ⟨_, hj, _⟩ := his j hj; hj, by simp⟩
      rw [hlast, State.advance_eq_withCp, seqBody_withCp hrest] at hnext
      rw [h] at hexec
      rw [seqBody_done h, execSeq_cons hexec hu]
      exact hnext.of_withCp
    | raise c u =>
      rw [h] at hexec
      rw [seqBody_raise h, execSeq_cons_faulted hexec (u.takeFault_state c)]
      exact .faulted c u u.cp
    | stuck f =>
      rw [h] at hexec
      rw [seqBody, h, execSeq_cons_stuck hexec]
      exact .stuck f

end Sys2Proof.Machine

/-!
RUN against the six commands (spec/47_control.md R253), and against the same commands with FRM.PARSE first (R256).
-/

namespace Sys2Proof.Machine

/-- The six commands with FRM.PARSE moved to the front (R256). -/
def parseFirst : List Instr :=
  [.frmParse, .crcId, .rngSeed, .kdfKey, .kdfIv, .decRun]

section
variable {s : State} (hdone : s.done = false) (hstate : s.state ≠ .faulted)
include hdone hstate

/-- DECRYPT's commands do what RUN's body does. -/
theorem execSeq_decrypt_executes : Executes (s.cp + 6) (runBody s) (execSeq (expandLine .decrypt) s) := by
  rw [runBody_eq_seqBody]
  exact execSeq_executes (is := [.crcId, .rngSeed, .kdfKey, .kdfIv, .frmParse]) (by decide) hdone hstate

theorem execSeq_parseFirst_executes : Executes (s.cp + 6) (seqBody parseFirst s) (execSeq parseFirst s) :=
  execSeq_executes (is := [.frmParse, .crcId, .rngSeed, .kdfKey, .kdfIv]) (by decide) hdone hstate

end

/-- Fault entry at another `CP` is the same but for `CP` and the value of `FAULT_CP`. -/
theorem State.eraseCp_takeFault_withCp (s : State) (c : Cause) (cp : BitVec 16) :
    ((s.withCp cp).takeFault c).eraseCp = (s.takeFault c).eraseCp := by
  by_cases hc : c = .cryptoError
  · subst hc
    rfl
  · rw [State.takeFault_other _ hc, State.takeFault_other _ hc]
    rfl

/-- Settles O39: RUN's body is the bodies of the six commands in sequence, and both finish with the state it gives. -/
theorem runIsTheSixCommands : Obligations.RunIsTheSixCommands := by
  unfold Obligations.RunIsTheSixCommands
  intro s hs
  cases hdone : s.done with
  | true =>
    have hsingleShot {i : Instr} (hi : i ≠ .halt) : exec i s = .next (s.takeFault .sequenceFault) := by
      rw [exec_eq_runCommand hi, runCommand_done hdone]
    have hseq : execSeq (expandLine .decrypt) s = .next (s.takeFault .sequenceFault) :=
      execSeq_cons_faulted (hsingleShot (by decide)) rfl _
    rw [hsingleShot (by decide), hseq]
    exact ⟨rfl, .inr ⟨rfl, rfl, rfl, rfl⟩⟩
  | false =>
    have hseq := execSeq_decrypt_executes hdone hs
    have hkeeps := bodyOf_keeps .run s
    have hraises := bodyOf_raise_controlled .run s
    rw [exec_eq_runCommand (by decide), runCommand_ready hdone]
    change Executes _ (bodyOf .run s) _ at hseq
    generalize bodyOf .run s = r at *
    generalize execSeq (expandLine .decrypt) s = o at *
    cases hseq with
    | completed u =>
      obtain ⟨hstate, hcp, -⟩ := hkeeps u rfl
      exact ⟨rfl, .inl ⟨hstate, congrArg (· + 1) hcp, rfl⟩⟩
    | faulted c u faultCp =>
      obtain ⟨⟨-, hcp, -⟩, -⟩ := hraises c u rfl
      exact ⟨(u.eraseCp_takeFault_withCp c faultCp).symm, .inr ⟨by simp, by simp [hcp], by simp [hcp], by simp⟩⟩
    | stuck f => rfl

/-! ### Parsing first -/

/-- Where the bodies with FRM.PARSE first are done, RUN's are done with the same result: FRM.PARSE reads and writes
nothing that the four commands it is moved over write or read (R256). -/
theorem pipelineCompletes_of_parseFirst {s t : State} (h : seqBody parseFirst s = .done t) :
    ∃ key iv w1 w2 plain pt, PipelineCompletes s key iv w1 w2 plain ∧ memWrite [] 0 plain = some pt ∧
      t = s.pipelineDone plain pt := by
  obtain ⟨_, hfrmParse, h⟩ := seqBody_cons_eq_done h
  obtain ⟨hct, h8, hmarker, rfl⟩ := frmParseBody_eq_done hfrmParse
  obtain ⟨_, hcrcId, h⟩ := seqBody_cons_eq_done h
  obtain ⟨hseed, hascii, rfl⟩ := crcIdBody_eq_done hcrcId
  obtain ⟨_, hrngSeed, h⟩ := seqBody_cons_eq_done h
  obtain ⟨_, ⟨⟩, hw, rfl⟩ := rngSeedBody_eq_done hrngSeed
  obtain ⟨_, hkdfKey, h⟩ := seqBody_cons_eq_done h
  obtain ⟨_, key, w1, ⟨⟩, hkey, hderiveKey, rfl⟩ := kdfKeyBody_eq_done hkdfKey
  obtain ⟨_, hkdfIv, h⟩ := seqBody_cons_eq_done h
  obtain ⟨_, iv, w2, ⟨⟩, hiv, hderiveIv, rfl⟩ := kdfIvBody_eq_done hkdfIv
  rw [seqBody_singleton] at h
  obtain ⟨_, _, _, plain, pt, ⟨⟩, ⟨⟩, ⟨⟩, hdecrypt, hpt, rfl⟩ := decRunBody_eq_done h
  rw [toNat_fileLen_sub_eight h8] at hdecrypt
  exact ⟨key, iv, w1, w2, plain, pt,
    ⟨hseed, hw, hkey, hiv, hct, hascii, hderiveKey, hderiveIv, h8, hmarker, hdecrypt⟩, hpt, rfl⟩

/-- Where the commands with FRM.PARSE first complete, RUN completes, and in the same state but for `CP`. -/
theorem exec_run_of_parseFirst {s t : State} (hs : s.state ≠ .faulted) (hdone : s.done = false)
    (h : execSeq parseFirst s = .next t) (ht : t.state ≠ .faulted) :
    ∃ u, exec .run s = .next u ∧ u.eraseCp = t.eraseCp := by
  have hseq := execSeq_parseFirst_executes hdone hs
  rw [h] at hseq
  generalize hbodies : seqBody parseFirst s = r at hseq
  cases hseq with
  | completed u =>
    obtain ⟨key, iv, w1, w2, plain, pt, hcompletes, hpt, rfl⟩ := pipelineCompletes_of_parseFirst hbodies
    obtain ⟨pt', hpt', hrun⟩ := runBody_done hcompletes
    obtain rfl : pt' = pt := Option.some.inj (hpt'.symm.trans hpt)
    exact ⟨_, exec_of_body_done (i := .run) (by decide) hdone hrun, rfl⟩
  | faulted c u faultCp => exact absurd (State.takeFault_state _ c) ht

/-- Settles O40: before a completed decryption by `exec_run_of_parseFirst`, after it the first command faults; and
FRM.PARSE is the first command, as CRC.ID is RUN's first sub-step. -/
theorem parseMayComeFirst : Obligations.ParseMayComeFirst := by
  unfold Obligations.ParseMayComeFirst
  refine ⟨fun s t hs h ht => ?_, fun s hdone hseed hct hcheck hbyte hbad => ⟨?_, ?_⟩⟩
  · cases hdone : s.done with
    | true =>
      have hfault : exec .frmParse s = .next (s.takeFault .sequenceFault) := runCommand_done hdone _
      cases (execSeq_cons_faulted hfault rfl _).symm.trans h
      exact absurd rfl ht
    | false => exact exec_run_of_parseFirst hs hdone h ht
  · have hfault : exec .frmParse s = .next (s.faulting .formatError) :=
      exec_of_body_raise (by decide) hdone (by decide) (frmParseBody_of_not_marker hct hbad)
    exact execSeq_cons_faulted hfault rfl _
  · obtain ⟨-, hidNotAscii, -⟩ := runReportsFirstFault s hdone
    exact hidNotAscii hseed hcheck hbyte

end Sys2Proof.Machine

/-!
The faults of fetch and decode, and the codes of the causes (spec/60_exceptions.md R270, R274, R279).
-/

namespace Sys2Proof.Machine

/-- Settles O41. -/
theorem causeCodes : Obligations.CauseCodes := ⟨rfl, rfl, rfl, rfl, rfl, rfl, rfl, rfl⟩

/-- A fetch that raises a cause other than CryptoError is the step entering that fault (R276). -/
theorem step_of_fetch_raise {s : State} {c : Cause} (hr : s.state = .running) (hc : c ≠ .cryptoError)
    (hfetch : fetch s = .raise c) : step s = .next (s.faulting c) := by
  rw [← takeFault_eq_faulting s hc, step_running hr, hfetch]

/-- Settles O6: of the ways a step leads on from RUNNING only a fetched HALT leads to HALTED. -/
theorem fetchPastEndIsRaised : Obligations.FetchPastEndIsRaised := by
  unfold Obligations.FetchPastEndIsRaised
  refine ⟨fun s hr hend => step_of_fetch_raise hr (by decide) (fetch_pastEnd hend), fun s t hr h ht => ?_⟩
  obtain ⟨hne, -⟩ | ⟨-, hstep⟩ := step_next_cases h
  · exact absurd hr hne
  cases hstep with
  | halted hw hdecode => exact ⟨_, hw, hdecode⟩
  | completed _ _ _ _ hkeeps =>
    obtain ⟨hstate, -⟩ := hkeeps
    simp [hstate, hr] at ht
  | faulted => simp at ht

/-- Settles O7: a word of no row is illegal, since the decoder is the opcode table. -/
theorem illegalCommandIsRaised : Obligations.IllegalCommandIsRaised := by
  unfold Obligations.IllegalCommandIsRaised
  intro s w hr hw hrow
  obtain ⟨-, hillegal⟩ := decoderIsTheOpcodeTable
  obtain ⟨why, hdecode⟩ := (hillegal w).2 hrow
  exact step_of_fetch_raise hr (by decide) (by rw [fetch_word hw, decodeFetched, hdecode])

end Sys2Proof.Machine

/-!
The faults that commands raise: how a fault is entered (spec/60_exceptions.md R276), and where SequenceFault is raised
(R275).
-/

namespace Sys2Proof.Machine

section
variable {i : Instr} {s t : State}

/-- A command other than RUN that leads to FAULTED has entered a fault in the state it began in. -/
theorem exec_next_faulted (hrun : i ≠ .run) (hs : s.state ≠ .faulted) (h : exec i s = .next t)
    (ht : t.state = .faulted) : ∃ c, c ≠ .none ∧ t = s.takeFault c := by
  rcases exec_next h with ⟨-, rfl⟩ | ⟨-, ⟨-, rfl⟩ | ⟨-, ⟨u, hu, rfl⟩ | ⟨c, u, hu, rfl⟩⟩⟩
  · cases ht
  · exact ⟨_, by decide, rfl⟩
  · obtain ⟨hstate, -⟩ := bodyOf_keeps i s u hu
    exact absurd (hstate.symm.trans ht) hs
  · obtain ⟨rfl, hc⟩ := bodyOf_raise hrun s c u hu
    exact ⟨c, hc, rfl⟩

/-- After the decryption every command but HALT meets its row of R275 (R250 stage 3). -/
theorem sequenceCondition_of_done (hhalt : i ≠ .halt) (hdone : s.done = true) : sequenceCondition s i = true := by
  cases i with
  | halt => exact absurd rfl hhalt
  | _ => simp [sequenceCondition, hdone]

/-- Before the decryption a body raises SequenceFault exactly on its command's row of R275. -/
theorem bodyOf_sequenceFault_iff (hrun : i ≠ .run) (hdone : s.done = false) :
    bodyOf i s = .raise .sequenceFault s ↔ sequenceCondition s i = true := by
  cases i <;> simp only [bodyOf, sequenceCondition, hdone, Bool.false_or, State.crcValid, State.seedValid,
    State.rngValid, State.keyValid, State.ivValid, State.ctValid]
  case halt => simp
  case run => exact absurd rfl hrun
  case crcInit => simp [crcInitBody]
  case crcUpd b => rcases crcUpdBody_cases b s with ⟨hacc, e⟩ | ⟨_, hacc, e⟩ <;> simp [e, hacc]
  case crcFin =>
    rcases crcFinBody_cases s with ⟨hfault, e⟩ | ⟨_, hacc, hseed, e⟩
    · simpa [e] using hfault
    · simp [e, hacc, hseed]
  case crcId =>
    rcases crcIdBody_cases s with ⟨hseed, e⟩ | ⟨hseed, -, e⟩ | ⟨hseed, -, e⟩ <;> simp [e, hseed]
  case rngSeed =>
    rcases rngSeedBody_cases s with ⟨hfault, e⟩ | ⟨_, hseed, hw, e⟩
    · simpa [e] using hfault
    · simp [e, hseed, hw]
  case rngNext => rcases rngNextBody_cases s with ⟨hw, e⟩ | ⟨_, hw, e⟩ <;> simp [e, hw]
  case kdfKey =>
    rcases kdfKeyBody_cases s with ⟨hfault, e⟩ | ⟨_, hw, hkey, -, e⟩ | ⟨_, _, _, hw, hkey, -, e⟩
    · simpa [e] using hfault
    · simp [e, hw, hkey]
    · simp [e, hw, hkey]
  case kdfIv =>
    rcases kdfIvBody_cases s with ⟨hfault, e⟩ | ⟨_, hw, hkey, hiv, -, e⟩ | ⟨_, _, _, hw, hkey, hiv, -, e⟩
    · simpa [e, or_assoc] using hfault
    · simp [e, hw, hkey, hiv]
    · simp [e, hw, hkey, hiv]
  case frmParse =>
    rcases frmParseBody_cases s with ⟨hct, e⟩ | ⟨hct, -, e⟩ | ⟨hct, -, -, e⟩ <;> simp [e, hct]
  case decRun =>
    rcases decRunBody_cases s with ⟨hfault, e⟩ | ⟨_, _, _, hkey, hiv, hct, hready⟩
    · simpa [e, or_assoc] using hfault
    · rcases hready with ⟨-, e⟩ | ⟨-, ⟨-, e⟩ | ⟨_, _, -, -, e⟩⟩ <;> simp [e, hkey, hiv, hct]

end

/-- Settles O42: a fault of a command other than RUN is entered in the state the command began in. -/
theorem faultEntryIsPrecise : Obligations.FaultEntryIsPrecise := by
  unfold Obligations.FaultEntryIsPrecise
  intro i s t hrun hs h ht
  obtain ⟨c, hc, rfl⟩ := exec_next_faulted hrun hs h ht
  rw [State.takeFault_cause]
  refine ⟨hc, takeFault_eq_faulting s, ?_⟩
  rintro rfl
  exact takeFault_eq_faulting_cryptoError s

/-- Settles O43: the cause is the one the single-shot check or the body raises, and as it was where neither does. -/
theorem sequenceFaultExactly : Obligations.SequenceFaultExactly := by
  unfold Obligations.SequenceFaultExactly
  intro i s t hrun hcause h
  rcases exec_next h with ⟨rfl, rfl⟩ | ⟨hhalt, ⟨hdone, rfl⟩ | ⟨hdone, ⟨u, hu, rfl⟩ | ⟨c, u, hu, rfl⟩⟩⟩
  · simpa [sequenceCondition] using hcause
  · simp [sequenceCondition_of_done hhalt hdone]
  · obtain ⟨-, -, hkept, -⟩ := bodyOf_keeps i s u hu
    simp [← bodyOf_sequenceFault_iff hrun hdone, hu, hkept, hcause]
  · obtain ⟨rfl, -⟩ := bodyOf_raise hrun s c u hu
    simp [← bodyOf_sequenceFault_iff hrun hdone, hu]

end Sys2Proof.Machine
